-- ==== Sys2Proof/Word.lean ====
section
/-! DEFINITION. The word and byte types of modexp_core (00_scope.md R5, 20_memory.md R64). -/

namespace Sys2Proof

/-- One register or symbol word: `W = 64` bits (R5). -/
abbrev Word := BitVec 64

/-- One byte lane of a word (R64). -/
abbrev Byte := BitVec 8

end Sys2Proof
end

