-- ==== Sys2Proof/Config.lean ====
section
/-! DEFINITION. What a build or a platform fixes, and the model's one free value. -/

namespace Sys2Proof

/-- The parameters the spec leaves open for a machine: `MEM_WORDS`, the symbol-memory size in words
(00_scope.md R7), and `BASE`, the byte address of the block's window (20_memory.md R63). They stand in
the state, where no step changes them, so that a statement for every state is one for every build
(assumption log 3 and 4). -/
structure Build where
  memWords : Nat
  base : Nat
  deriving DecidableEq, Repr

/-- `1 ≤ MEM_WORDS ≤ 7680` (R7) and `BASE` a multiple of 64 KiB (R63). -/
def Build.legal (b : Build) : Bool :=
  decide (1 ≤ b.memWords ∧ b.memWords ≤ 7680 ∧ b.base % 65536 = 0)

/-- The free value: the `k`-th draw of an unspecified symbol word (20_memory.md R61, "a host read of an
unwritten word returns an unconstrained value: a draw"). No body: nothing can be proved of it
(assumption log 5). -/
opaque Config.draw : Nat → Word

end Sys2Proof
end

