-- ==== Sys2Proof/Machine/BusTypes.lean ====
section
/-! DEFINITION. The names the host bus uses: registers, accesses, responses, the lines of a host program
and the agents that take steps. -/

namespace Sys2Proof.Machine

/-- The registers of the register map (10_state.md R23). -/
inductive Reg
  | id | cap | ctrl | status | cmd | budget | iters | errInfo
  | op (i : Fin 8)
  | res (i : Fin 8)
  deriving DecidableEq, Repr

/-- What an offset of the window names: a register, or symbol word `i` (10_state.md R23). -/
inductive Target
  | reg (r : Reg)
  | sym (i : Nat)
  deriving DecidableEq, Repr

/-- A host bus access reads, or writes a value (20_memory.md R64). -/
inductive AccessKind
  | read
  | write (v : Word)
  deriving DecidableEq, Repr

/-- One host bus access: its byte address, its size in bytes, and what it does. Any address and size can
be asked for: R65 says which get the error response. (For a size other than 8 the value written is of no
consequence: nothing is written.) -/
structure Access where
  addr : Nat
  bytes : Nat
  kind : AccessKind
  deriving DecidableEq, Repr

/-- The block's answer to an access: a normal response, or the error response of R65. -/
inductive Response
  | readOk (v : Word)
  | writeOk
  | readError
  | writeError
  deriving DecidableEq, Repr

/-- One line of a host program (30_encoding.md R95, and `WAIT` of R96), or any other bus access. -/
inductive HostOp
  | wr (r : Reg) (v : Int)
  | rd (r : Reg)
  | wrm (i : Nat) (v : Int)
  | rdm (i : Nat)
  | raw (a : Access)
  | wait
  deriving DecidableEq, Repr

/-- The agents of 70_reset_and_hazards.md R250: the host, the engine, and the platform with its
power-on reset. (Soft reset is a host write.) -/
inductive Agent
  | host
  | engine
  | platform
  deriving DecidableEq, Repr

end Sys2Proof.Machine
end

