-- ==== Sys2Proof/Syntax.lean ====
section
/-! DEFINITION. The thirteen commands of the opcode map (30_encoding.md R92). -/

namespace Sys2Proof

/-- The commands of command-set version 1, one constructor per row of the opcode table. A command word
has no operand fields (R90), so no constructor has an argument: operands are operand registers (R93). -/
inductive Instr
  | gcd | coprime | modpow | modinv | choosee
  | keygen | keygenAuto
  | encrypt | decrypt
  | factorize | totient | recoverd | crack
  deriving DecidableEq, Repr

end Sys2Proof
end

