-- ==== Sys2Proof/Machine/State.lean ====
section
/-! DEFINITION. The architectural state of modexp_core (10_state.md R20), with the schedule, the host
program and the bus response beside it, and the state after power-on reset. Plain data throughout. -/

namespace Sys2Proof.Machine

/-- A bank of eight 64-bit registers: `OP0`–`OP7` or `RES0`–`RES7` (10_state.md R21, R22). -/
structure Bank where
  r0 : Word
  r1 : Word
  r2 : Word
  r3 : Word
  r4 : Word
  r5 : Word
  r6 : Word
  r7 : Word
  deriving DecidableEq, Repr

/-- A bank of zeros, the reset value (R21, R22). -/
def Bank.zero : Bank := ⟨0, 0, 0, 0, 0, 0, 0, 0⟩

/-- The symbol memory (20_memory.md R60) as bytes at their offsets in the window: byte lane `k` of
`Sym[i]` stands at offset `0x1000 + 8·i + k` (R64). A listed byte is a written one: the list is the
written marks of R61 as well. Canonical form: offsets strictly rising; an unlisted byte has no value. -/
abbrev Memory := List Host.Cell

/-- The error codes of 60_exceptions.md R211. No other code is ever produced. -/
inductive ErrCode
  | ok | noInverse | notFound | invalidPublicExponent | primeOrUnfactorable | keyNotFound
  | symbolOutOfRange | lengthExceeded | budgetExceeded | domain | range | illegalCmd
  deriving DecidableEq, Repr

/-- The crack stages of `STATUS.ERRSTAGE` (10_state.md R31); `none` is 0. -/
inductive Stage
  | none | args | factorize | totient | recover | decrypt
  deriving DecidableEq, Repr

/-- The latch `L = (cmd, OP[0..7], BUDGET, Sym0)` taken at an accepted CMD write (10_state.md R38). -/
structure Latch where
  cmd : Word
  ops : Bank
  budget : Word
  sym0 : Memory
  deriving DecidableEq, Repr

/-- The engine's phase, with the latch while BUSY (10_state.md R38). -/
inductive Engine
  | idle
  | busy (l : Latch)
  deriving DecidableEq, Repr

/-- The outcome of a command (00_scope.md R14): `Ok` with the listed results, the symbol writes and the
count of candidates, or `Err` with code, stage, information and count; or the model-only fault of
60_exceptions.md R226. -/
inductive CmdOutcome
  | ok (res : List Int) (writes : List (Nat × Int)) (iters : Nat)
  | err (code : ErrCode) (stage : Stage) (info : Nat) (iters : Nat)
  | uninitSymbolRead
  deriving DecidableEq, Repr

/-- The machine: the block's state (10_state.md R20), its build parameters, and the model's own account
of what is outside the block. -/
structure State where
  /-- `MEM_WORDS` and `BASE`: no step changes them (R7, R63). -/
  build : Build
  /-- `OP0`–`OP7` (R21). -/
  ops : Bank
  /-- `RES0`–`RES7` (R22). -/
  res : Bank
  /-- `CMD`, the last accepted command word (R24). -/
  cmd : Word
  /-- `CTRL.IE` (R25). -/
  ie : Bool
  /-- `STATUS.DONE` (R29). -/
  done : Bool
  /-- `STATUS.WERR` (R30). -/
  werr : Bool
  /-- `STATUS.ERRCODE` (R31). -/
  errCode : ErrCode
  /-- `STATUS.ERRSTAGE` (R31). -/
  errStage : Stage
  /-- `BUDGET` (R32). -/
  budget : Word
  /-- `ITERS` (R34). -/
  iters : Word
  /-- `ERRINFO` (R37). -/
  errInfo : Word
  /-- The symbol memory with its written marks (R60, R61). -/
  mem : Memory
  /-- The phase, seen by the host as `STATUS.BUSY`, and the latch (R38). -/
  engine : Engine
  /-- The model's own: how many unspecified words host reads have drawn (assumption log 5). -/
  draws : Nat
  /-- The model's own: whose turn comes next; it decides `LAT` (R8, R250, assumption log 1). -/
  schedule : List Agent
  /-- The model's own: the host program still to be issued (R95, assumption log 10). -/
  program : List HostOp
  /-- The model's own: the bus response to the last host access (R64, R65, assumption log 9). -/
  resp : Option Response
  deriving DecidableEq, Repr

/-- Why the machine stops. -/
inductive Fault
  /-- Raised by ENCRYPT, DECRYPT and CRACK when they reach the symbol reads of 42_cipher.md R161 with an
  unwritten word in `[SRC, SRC+LEN)` (20_memory.md R61, 60_exceptions.md R226). Safe: the hardware goes on
  with unspecified contents, and nothing is proved of such a run. -/
  | uninitSymbolRead
  deriving DecidableEq, Repr

/-- Why a step has no meaning. -/
inductive Refusal
  /-- Raised by an arm of `exec` whose command has no meaning yet; no arm does now. Safe. -/
  | notModelled (mnemonic : String)
  deriving DecidableEq, Repr

/-- The state right after power-on reset, the clean entry of 70_reset_and_hazards.md R240 and R257, with
the default `MEM_WORDS = 1024` (R7), `BASE` 0 (assumption log 4), and nothing yet scheduled or asked for. -/
def State.reset : State where
  build := ⟨1024, 0⟩
  ops := Bank.zero
  res := Bank.zero
  cmd := 0
  ie := false
  done := false
  werr := false
  errCode := .ok
  errStage := .none
  budget := 0
  iters := 0
  errInfo := 0
  mem := []
  engine := .idle
  draws := 0
  schedule := []
  program := []
  resp := none

end Sys2Proof.Machine
end

