-- ==== Sys2Proof/Machine/Operands.lean ====
section
/-! DEFINITION. Registers of a bank and the operand forms: `s64`, `u64`, `enc64` (00_scope.md R10,
30_encoding.md R93) and the operands of the sequence commands (20_memory.md R67). -/

namespace Sys2Proof.Machine

/-- Register `i` of a bank. -/
def Bank.get (b : Bank) (i : Fin 8) : Word :=
  match i.val with
  | 0 => b.r0
  | 1 => b.r1
  | 2 => b.r2
  | 3 => b.r3
  | 4 => b.r4
  | 5 => b.r5
  | 6 => b.r6
  | _ => b.r7

/-- The bank with register `i` replaced. -/
def Bank.set (b : Bank) (i : Fin 8) (w : Word) : Bank :=
  match i.val with
  | 0 => { b with r0 := w }
  | 1 => { b with r1 := w }
  | 2 => { b with r2 := w }
  | 3 => { b with r3 := w }
  | 4 => { b with r4 := w }
  | 5 => { b with r5 := w }
  | 6 => { b with r6 := w }
  | _ => { b with r7 := w }

/-- `s64(r)`: the two's-complement reading (R10). -/
def s64 (w : Word) : Int := w.toInt

/-- `u64(r)`: the unsigned reading (R10). -/
def u64 (w : Word) : Nat := w.toNat

/-- `enc64(v)`: the 64-bit two's-complement pattern (R10). The rules write only values in
`[-2^63, 2^63-1]`; a `WR` line of a host program may also give a value up to `2^64-1`, which is its own
pattern (30_encoding.md R95). -/
def enc64 (v : Int) : Word := BitVec.ofInt 64 v

/-- The largest value a result register can hold, `2^63 - 1` (R10, R211 E_RANGE). -/
def maxS64 : Int := 2 ^ 63 - 1

/-- `s64(OP[i])` of the latched operands. -/
def opS (l : Latch) (i : Fin 8) : Int := s64 (l.ops.get i)

/-- `u64(OP[i])` of the latched operands. -/
def opU (l : Latch) (i : Fin 8) : Nat := u64 (l.ops.get i)

/-- `SRC = u64(OP[2])` (20_memory.md R67). -/
def srcOf (l : Latch) : Nat := opU l 2

/-- `DST = u64(OP[3])` (20_memory.md R67). -/
def dstOf (l : Latch) : Nat := opU l 3

/-- `LEN = u64(OP[4])` (20_memory.md R67). -/
def lenOf (l : Latch) : Nat := opU l 4

/-- `range_ok` of 20_memory.md R67, on exact integers. -/
def rangeOk (memWords : Nat) (l : Latch) : Bool :=
  decide (srcOf l + lenOf l ≤ memWords ∧ dstOf l + lenOf l ≤ memWords)

/-- `u64(BUDGET)` of the latch (10_state.md R32). -/
def budgetOf (l : Latch) : Nat := u64 l.budget

end Sys2Proof.Machine
end

