-- ==== Sys2Proof/Machine/Arithmetic.lean ====
section
/-! DEFINITION. The arithmetic helpers of the commands: `emod`, `fdiv` (00_scope.md R11), the Euclidean
algorithm (40_modular_arithmetic.md R111), square-and-multiply (R114), the extended Euclidean inverse
(R116) and the totient (43_cracker.md R182). All on mathematical integers (00_scope.md R10). Each loop is
structural on a bound that its rule shows it never exceeds. -/

namespace Sys2Proof.Machine

/-- `emod(a, m)`, the nonnegative remainder (00_scope.md R11). -/
def emod (a m : Int) : Int := Int.emod a m

/-- `fdiv(a, m) = (a - emod(a, m)) / m` (00_scope.md R11). -/
def fdiv (a m : Int) : Int := (a - emod a m) / m

/-- The loop of `euclid`; `y` strictly decreases, so `fuel ≥ y` turns are enough (R111). -/
def euclidLoop : (fuel : Nat) → (x y : Nat) → Nat
  | 0, x, _ => x
  | fuel + 1, x, y => if y = 0 then x else euclidLoop fuel y (x % y)

/-- `euclid(a, b)`: the Euclidean algorithm on the magnitudes (R111). -/
def euclid (a b : Int) : Nat := euclidLoop b.natAbs a.natAbs b.natAbs

/-- The loop of `modpow`; `x` is halved, so `fuel ≥ x` turns are enough (R114). -/
def modpowLoop (m : Int) : (fuel : Nat) → (r b : Int) → (x : Nat) → Int
  | 0, r, _, _ => r
  | fuel + 1, r, b, x =>
    if x = 0 then r
    else modpowLoop m fuel (if x % 2 = 1 then emod (r * b) m else r) (emod (b * b) m) (x / 2)

/-- `modpow(base, exp, m)`: right-to-left square-and-multiply (R114). -/
def modpow (base : Int) (exp : Nat) (m : Int) : Int :=
  modpowLoop m exp (emod 1 m) (emod base m) exp

/-- The loop of `ext_inverse`, giving `(r0, t0)` when `r1 = 0`; `r1` strictly decreases, so `fuel ≥ r1`
turns are enough (R116). -/
def extInverseLoop : (fuel : Nat) → (r0 r1 t0 t1 : Int) → Int × Int
  | 0, r0, _, t0, _ => (r0, t0)
  | fuel + 1, r0, r1, t0, t1 =>
    if r1 = 0 then (r0, t0)
    else
      let q := fdiv r0 r1
      extInverseLoop fuel r1 (r0 - q * r1) t1 (t0 - q * t1)

/-- `ext_inverse(e, phi)`: the inverse of `e` modulo `phi`, with the post-condition check (R116). -/
def extInverse (e phi : Int) : Option Int :=
  let a := emod e phi
  let rt := extInverseLoop a.toNat phi a 0 1
  if rt.1 ≠ 1 then none
  else
    let d := emod rt.2 phi
    if emod (e * d) phi ≠ 1 then none else some d

/-- `totient(p, q) = (p - 1) * (q - 1)` (43_cracker.md R182). -/
def totient (p q : Int) : Int := (p - 1) * (q - 1)

end Sys2Proof.Machine
end

