-- ==== Sys2Proof/WellFormed.lean ====
section
/-! DEFINITION. The checks of well-formedness: of a command, of a command word (30_encoding.md R90, R94),
of a line of a host program (R95) and, in Config.lean, of a build. -/

namespace Sys2Proof

/-- A command carries no field that could be out of range (R90: "No register-number, immediate or mode
field exists"), so every command is well-formed. -/
def Instr.wellFormed : Instr → Bool
  | .gcd | .coprime | .modpow | .modinv | .choosee => true
  | .keygen | .keygenAuto => true
  | .encrypt | .decrypt => true
  | .factorize | .totient | .recoverd | .crack => true

/-- The reserved bits `[63:8]` of a command word are zero (R90). -/
def rsvdZero (w : Word) : Bool := w >>> 8 == 0

/-- The OPCODE byte is one of the thirteen of R92. -/
def opcodeAssigned (w : Word) : Bool :=
  [0x01, 0x02, 0x03, 0x04, 0x05, 0x10, 0x11, 0x20, 0x21, 0x30, 0x31, 0x32, 0x33].contains (w.toNat % 256)

/-- A legal command word (R94). -/
def commandWordWellFormed (w : Word) : Bool := rsvdZero w && opcodeAssigned w

/-- The range R95 gives the value of a `WR` or `WRM` line: `[-2^63, 2^64-1]`. -/
def hostValueWellFormed (v : Int) : Bool := decide (-2 ^ 63 ≤ v ∧ v ≤ 2 ^ 64 - 1)

open Machine in
/-- A line of a host program is in the notation of R95: its value in range, its symbol index in the
memory. (A line that is not still has a defined effect on the block; see assumption log 15.) -/
def hostOpWellFormed (b : Build) : HostOp → Bool
  | .wr _ v => hostValueWellFormed v
  | .rd _ => true
  | .wrm i v => decide (i < b.memWords) && hostValueWellFormed v
  | .rdm i => decide (i < b.memWords)
  | .raw _ => true
  | .wait => true

end Sys2Proof
end

