-- ==== Sys2Proof/Decode.lean ====
section
/-! DEFINITION. Decoding and encoding of command words (30_encoding.md R90 to R94). -/

namespace Sys2Proof

/-- Why a word is ILLEGAL (R94), or why bytes are no word at all. -/
inductive IllegalWord
  | reservedBits       -- `w[63:8] ≠ 0`
  | unassignedOpcode   -- OPCODE not in R92
  | truncated          -- fewer than eight bytes: cannot come over the bus, which moves whole words (R64)
  deriving DecidableEq, Repr

/-- The outcome of decoding: a command, or ILLEGAL with the reason. -/
inductive Decoded
  | command (i : Instr)
  | illegal (why : IllegalWord)
  deriving DecidableEq, Repr

/-- The opcode map of R91, on the OPCODE byte. -/
def decodeOpcode : Nat → Decoded
  | 0x01 => .command .gcd
  | 0x02 => .command .coprime
  | 0x03 => .command .modpow
  | 0x04 => .command .modinv
  | 0x05 => .command .choosee
  | 0x10 => .command .keygen
  | 0x11 => .command .keygenAuto
  | 0x20 => .command .encrypt
  | 0x21 => .command .decrypt
  | 0x30 => .command .factorize
  | 0x31 => .command .totient
  | 0x32 => .command .recoverd
  | 0x33 => .command .crack
  | _ => .illegal .unassignedOpcode

/-- `decode(w)` of R91, total on every 64-bit value. -/
def decode (w : Word) : Decoded :=
  if w.toNat / 256 ≠ 0 then .illegal .reservedBits else decodeOpcode (w.toNat % 256)

/-- The little-endian value of a list of bytes: byte lane `k` carries bits `[8k+7:8k]`
(20_memory.md R64). -/
def ofLeBytes : List Byte → Nat
  | [] => 0
  | b :: bs => b.toNat + 256 * ofLeBytes bs

/-- The `n` low bytes of `v`, least significant first (20_memory.md R64). -/
def leBytes : Nat → Nat → List Byte
  | 0, _ => []
  | n + 1, v => BitVec.ofNat 8 v :: leBytes n (v / 256)

/-- Decode a command word as it stands in bytes, and what follows it. -/
def decodeBytes (bs : List Byte) : Decoded × List Byte :=
  if bs.length < 8 then (.illegal .truncated, bs)
  else (decode (BitVec.ofNat 64 (ofLeBytes (bs.take 8))), bs.drop 8)

/-- The OPCODE of a command (R92). -/
def opcode : Instr → BitVec 8
  | .gcd => 0x01
  | .coprime => 0x02
  | .modpow => 0x03
  | .modinv => 0x04
  | .choosee => 0x05
  | .keygen => 0x10
  | .keygenAuto => 0x11
  | .encrypt => 0x20
  | .decrypt => 0x21
  | .factorize => 0x30
  | .totient => 0x31
  | .recoverd => 0x32
  | .crack => 0x33

/-- The command word of a command: `zext_64(opcode(X))` (R91). -/
def encode (i : Instr) : Word := (opcode i).setWidth 64

/-- What the decoder reads from an instruction whose bits are `w`, numbered as the opcode table numbers
them: the low `nbits` of `w`, every bit above them zero, laid out as the eight bytes of one bus word. -/
def decodeTableWord (nbits w : Nat) : Option Instr :=
  match (decodeBytes (leBytes 8 (w % 2 ^ nbits))).1 with
  | .command i => some i
  | .illegal _ => none

end Sys2Proof
end

