-- ==== Sys2Proof/Machine/Flags.lean ====
section
/-! DEFINITION. The words of the control and status registers as the host reads them, and the interrupt
output (10_state.md R25, R26, R31, R35, R36, R39). -/

namespace Sys2Proof.Machine

/-- The number of an error code (60_exceptions.md R211). -/
def ErrCode.number : ErrCode → Nat
  | .ok => 0x00
  | .noInverse => 0x01
  | .notFound => 0x02
  | .invalidPublicExponent => 0x03
  | .primeOrUnfactorable => 0x04
  | .keyNotFound => 0x05
  | .symbolOutOfRange => 0x06
  | .lengthExceeded => 0x07
  | .budgetExceeded => 0x08
  | .domain => 0x09
  | .range => 0x0A
  | .illegalCmd => 0x0B

/-- The number of a crack stage (10_state.md R31). -/
def Stage.number : Stage → Nat
  | .none => 0
  | .args => 1
  | .factorize => 2
  | .totient => 3
  | .recover => 4
  | .decrypt => 5

/-- `STATUS.BUSY`: the phase is BUSY (10_state.md R28, R38). -/
def State.busy (s : State) : Bool :=
  match s.engine with
  | .idle => false
  | .busy _ => true

/-- `STATUS.ERR`, always `ERRCODE ≠ 0` (10_state.md R31). -/
def State.err (s : State) : Bool := s.errCode != .ok

/-- The STATUS word of R26: BUSY 0, DONE 1, WERR 2, ERR 3, ERRCODE 15:8, ERRSTAGE 19:16, the rest 0. -/
def statusWord (s : State) : Word :=
  BitVec.ofNat 64 (s.busy.toNat + 2 * s.done.toNat + 4 * s.werr.toNat + 8 * s.err.toNat
    + 0x100 * s.errCode.number + 0x10000 * s.errStage.number)

/-- The CTRL word of R25: IE in bit 0; SRST reads 0, reserved bits read 0. -/
def ctrlWord (s : State) : Word := BitVec.ofNat 64 s.ie.toNat

/-- ID (R35). -/
def idWord : Word := 0x53584E5400010007

/-- CAP (R36): `MEM_WORDS`, the width 64, eight operand and eight result registers, version 1. -/
def capWord (b : Build) : Word :=
  BitVec.ofNat 64 (b.memWords % 2 ^ 32 + 64 * 2 ^ 32 + 8 * 2 ^ 40 + 8 * 2 ^ 48 + 1 * 2 ^ 56)

/-- The interrupt output `irq = STATUS.DONE AND CTRL.IE` (R39). -/
def State.irq (s : State) : Bool := s.done && s.ie

end Sys2Proof.Machine
end

