-- ==== Sys2Proof/Machine/Ops.lean ====
section
/-! DEFINITION. The named operations over the symbol memory, the register banks and a command's life: its
start (60_exceptions.md R210), its completion with success or error (R212 to R214), and the resets
(70_reset_and_hazards.md R240, R241). -/

namespace Sys2Proof.Machine

/-! ### The symbol memory (20_memory.md R60, R61, R64) -/

/-- The canonical form: offsets strictly rising. (An unlisted byte reads as no value, so no listed byte
equals what an unlisted one reads as.) -/
abbrev Memory.wf (m : Memory) : Prop := m.Pairwise (fun x y => x.1 < y.1)

/-- The byte at a window offset; none where nothing has written. -/
def Memory.loadByte : Memory → Nat → Option Byte
  | [], _ => none
  | (x, b) :: m, a => if x = a then some b else Memory.loadByte m a

/-- Write one byte, keeping the canonical form. -/
def Memory.storeByte : Memory → Nat → Byte → Memory
  | [], a, b => [(a, b)]
  | (x, c) :: m, a, b =>
    if a < x then (a, b) :: (x, c) :: m
    else if a = x then (a, b) :: m
    else (x, c) :: Memory.storeByte m a b

/-- The `n` bytes from offset `a` up; none if one of them is unwritten. -/
def Memory.loadBytes (m : Memory) : Nat → Nat → Option (List Byte)
  | _, 0 => some []
  | a, n + 1 =>
    match m.loadByte a with
    | none => none
    | some b => (Memory.loadBytes m (a + 1) n).map (b :: ·)

/-- Write a list of bytes from offset `a` up. -/
def Memory.storeBytes : Memory → Nat → List Byte → Memory
  | m, _, [] => m
  | m, a, b :: bs => Memory.storeBytes (m.storeByte a b) (a + 1) bs

/-- The window offset of symbol word `i`: `0x1000 + 8·i` (R60). -/
def symOffset (i : Nat) : Nat := 0x1000 + 8 * i

/-- Symbol word `i`, little-endian; none while it is unwritten (R61). -/
def Memory.loadSym (m : Memory) (i : Nat) : Option Word :=
  (m.loadBytes (symOffset i) 8).map (fun bs => BitVec.ofNat 64 (ofLeBytes bs))

/-- Write symbol word `i`, which marks it written (R61). -/
def Memory.storeSym (m : Memory) (i : Nat) (w : Word) : Memory :=
  m.storeBytes (symOffset i) (leBytes 8 w.toNat)

/-- Commit a command's symbol writes `Sym[i] <- enc64(v)`, in order (R66, R212). -/
def Memory.commit (m : Memory) (writes : List (Nat × Int)) : Memory :=
  writes.foldl (fun m p => m.storeSym p.1 (enc64 p.2)) m

/-! ### The result registers -/

/-- The bank `complete(r0, …, rk)` leaves: the listed results, and 0 in every other register
(60_exceptions.md R213). -/
def Bank.ofResults (rs : List Int) : Bank :=
  ⟨enc64 (rs.getD 0 0), enc64 (rs.getD 1 0), enc64 (rs.getD 2 0), enc64 (rs.getD 3 0),
   enc64 (rs.getD 4 0), enc64 (rs.getD 5 0), enc64 (rs.getD 6 0), enc64 (rs.getD 7 0)⟩

/-! ### A command's start and its inputs -/

/-- The latch an accepted write of `w` to CMD takes (10_state.md R38, 60_exceptions.md R210). -/
def State.latchNow (s : State) (w : Word) : Latch := ⟨w, s.ops, s.budget, s.mem⟩

/-- Command start (60_exceptions.md R210): CMD and the latch are written, BUSY set, DONE cleared. -/
def startCommand (s : State) (w : Word) : State :=
  { s with cmd := w, engine := .busy (s.latchNow w), done := false }

/-- What a command computes from (00_scope.md R14): the latch while BUSY. While IDLE the engine runs
nothing (70_reset_and_hazards.md R250) and a step never asks; the live values stand in
(assumption log 8). -/
def State.inputs (s : State) : Latch :=
  match s.engine with
  | .busy l => l
  | .idle => s.latchNow s.cmd

/-! ### Completion: success and error as one shared operation -/

/-- `complete(r0, …, rk)` of a command with no scan and no symbol write (60_exceptions.md R213). -/
def complete (rs : List Int) : CmdOutcome := .ok rs [] 0

/-- `raise E_X(0, 0)` before any candidate is tested (60_exceptions.md R214). -/
def raise (code : ErrCode) : CmdOutcome := .err code .none 0 0

/-- Completion on success (60_exceptions.md R212, R213). -/
def commitOk (s : State) (rs : List Int) (writes : List (Nat × Int)) (iters : Nat) : State :=
  { s with
    res := Bank.ofResults rs
    mem := s.mem.commit writes
    errCode := .ok
    errStage := .none
    errInfo := 0
    iters := BitVec.ofNat 64 iters
    engine := .idle
    done := true }

/-- Completion on error, the block's only "exception" (60_exceptions.md R212, R214): all results 0, no
symbol written, the code, stage, information and count recorded. -/
def commitErr (s : State) (code : ErrCode) (stage : Stage) (info iters : Nat) : State :=
  { s with
    res := Bank.zero
    errCode := code
    errStage := stage
    errInfo := BitVec.ofNat 64 info
    iters := BitVec.ofNat 64 iters
    engine := .idle
    done := true }

/-- The engine's complete step (60_exceptions.md R212): commit a command's outcome, or stop with the
model-only fault of R226. -/
def commit (s : State) : CmdOutcome → Host.Outcome State Fault Refusal
  | .ok rs writes iters => .next (commitOk s rs writes iters)
  | .err code stage info iters => .next (commitErr s code stage info iters)
  | .uninitSymbolRead => .fault .uninitSymbolRead

/-- Completion of an accepted illegal word: `E_ILLEGAL_CMD`, stage 0, information 0, no candidate
(30_encoding.md R94). -/
def completeIllegal (s : State) : Host.Outcome State Fault Refusal :=
  commit s (raise .illegalCmd)

/-! ### Resets (70_reset_and_hazards.md R240, R241) -/

/-- Every register at its reset value and the phase IDLE: what both resets do. -/
def resetRegisters (s : State) : State :=
  { s with
    ops := Bank.zero
    res := Bank.zero
    cmd := 0
    ie := false
    done := false
    werr := false
    errCode := .ok
    errStage := .none
    budget := 0
    iters := 0
    errInfo := 0
    engine := .idle }

/-- Soft reset (R241): a command in flight is abandoned; the symbol memory and its marks stay. -/
def softReset (s : State) : State := resetRegisters s

/-- Power-on reset (R240): the symbol memory's contents are unspecified again and its marks cleared. -/
def powerOnReset (s : State) : State := { resetRegisters s with mem := [], resp := none }

end Sys2Proof.Machine
end

