-- ==== Sys2Proof/Machine/Cipher.lean ====
section
/-! DEFINITION. The Cipher family: ENCRYPT and DECRYPT (42_cipher.md), over `cipher_map` (R161). -/

namespace Sys2Proof.Machine

/-- The symbols `s64(Sym0[src + i])` for `i < len`; none if one of the words is unwritten
(20_memory.md R61). -/
def readSymbols (m : Memory) : (src len : Nat) → Option (List Int)
  | _, 0 => some []
  | src, len + 1 =>
    match m.loadSym src with
    | none => none
    | some w => (readSymbols m (src + 1) len).map (s64 w :: ·)

/-- The index of the first symbol out of `[0, n)`, counting from `i` (R162). -/
def firstOutOfRange (n : Int) : (i : Nat) → List Int → Option Nat
  | _, [] => none
  | i, s :: ss => if s < 0 ∨ s ≥ n then some i else firstOutOfRange n (i + 1) ss

/-- The writes that put a list of values at `dst`, `dst + 1`, … -/
def writesAt : (dst : Nat) → List Int → List (Nat × Int)
  | _, [] => []
  | dst, v :: vs => (dst, v) :: writesAt (dst + 1) vs

/-- `cipher_map(k, n, SRC, DST, LEN, stage)` (R161), followed by `complete(rs)` with the candidates
`iters` tested before it. Pass 1 checks every symbol before any write; pass 2 transforms. -/
def cipherMap (k : Nat) (n : Int) (l : Latch) (stage : Stage) (rs : List Int) (iters : Nat) : CmdOutcome :=
  match readSymbols l.sym0 (srcOf l) (lenOf l) with
  | none => .uninitSymbolRead
  | some syms =>
    match firstOutOfRange n 0 syms with
    | some i => .err .symbolOutOfRange stage i iters
    | none => .ok rs (writesAt (dstOf l) (syms.map (fun x => modpow x k n))) iters

/-- The function ENCRYPT and DECRYPT share (R163, R164: "the same function of (exponent, n, symbols)"). -/
def cipherCmd (memWords : Nat) (l : Latch) : CmdOutcome :=
  let k := opS l 0
  let n := opS l 1
  if n ≤ 0 then raise .domain
  else if k < 0 then raise .domain
  else if ¬ rangeOk memWords l then raise .lengthExceeded
  else cipherMap k.toNat n l .none [] 0

/-- The meaning of ENCRYPT (R163). -/
def execEncrypt (s : State) : Host.Outcome State Fault Refusal :=
  commit s (cipherCmd s.build.memWords s.inputs)

/-- The meaning of DECRYPT (R164). -/
def execDecrypt (s : State) : Host.Outcome State Fault Refusal :=
  commit s (cipherCmd s.build.memWords s.inputs)

end Sys2Proof.Machine
end

