-- ==== Sys2Proof/Machine/Scan.lean ====
section
/-! DEFINITION. The candidate scan (00_scope.md R15) with its iteration budget (10_state.md R33), said
once, and the three scans of the commands: `choose_e` (40_modular_arithmetic.md R118), `factor_scan` and
`recover_scan` (43_cracker.md R180, R184). -/

namespace Sys2Proof.Machine

/-- How a scan ends, each time with the number of candidates tested: a candidate found, no candidate
left, or candidate `BUDGET + 1` about to be tested. -/
inductive ScanResult
  | found (v : Int) (tested : Nat)
  | exhausted (tested : Nat)
  | overBudget (tested : Nat)
  deriving DecidableEq, Repr

/-- `budget_check(i)` raises: `BUDGET ≠ 0` and `i > BUDGET` (10_state.md R33). -/
def overBudget (budget i : Nat) : Bool := decide (budget ≠ 0 ∧ i > budget)

/-- A candidate scan: `left` candidates remain, `tested` have been tested, `v` is the next. The budget is
checked before each test and the check that raises is not counted (R33, R34). -/
def scan (test : Int → Bool) (budget : Nat) : (left : Nat) → (tested : Nat) → (v : Int) → ScanResult
  | 0, tested, _ => .exhausted tested
  | left + 1, tested, v =>
    if overBudget budget (tested + 1) then .overBudget tested
    else if test v then .found v (tested + 1)
    else scan test budget left (tested + 1) (v + 1)

/-- `choose_e(phi)`: `v = 2, 3, …, phi - 1`, the first coprime with `phi` (R118). -/
def chooseE (phi : Int) (budget : Nat) : ScanResult :=
  scan (fun v => euclid v phi == 1) budget (phi - 2).toNat 0 2

/-- `factor_scan(n)`: `k = 2, 3, …, n - 1`, the first divisor of `n` (R180). -/
def factorScan (n : Int) (budget : Nat) : ScanResult :=
  scan (fun k => emod n k == 0) budget (n - 2).toNat 0 2

/-- `recover_scan(e, phi)`: `d = 1, 2, …, phi - 1`, the first with `e·d mod phi = 1` (R184). -/
def recoverScan (e phi : Int) (budget : Nat) : ScanResult :=
  scan (fun d => emod (e * d) phi == 1) budget (phi - 1).toNat 0 1

end Sys2Proof.Machine
end

