-- ==== Sys2Proof/Machine/Cracker.lean ====
section
/-! DEFINITION. The Cracker family: FACTORIZE, TOTIENT, RECOVERD and the four-stage pipeline CRACK
(43_cracker.md). -/

namespace Sys2Proof.Machine

/-- FACTORIZE (R181): the first divisor `p` and `q = n / p`. -/
def factorizeCmd (l : Latch) : CmdOutcome :=
  let n := opS l 0
  match factorScan n (budgetOf l) with
  | .overBudget k => .err .budgetExceeded .none 0 k
  | .exhausted k => .err .primeOrUnfactorable .none 0 k
  | .found p k => .ok [p, n / p] [] k

/-- TOTIENT (R183). -/
def totientCmd (l : Latch) : CmdOutcome :=
  let p := opS l 0
  let q := opS l 1
  if p ≤ 0 ∨ q ≤ 0 then raise .domain
  else if totient p q > maxS64 then raise .range
  else complete [totient p q]

/-- RECOVERD (R185). -/
def recoverdCmd (l : Latch) : CmdOutcome :=
  match recoverScan (opS l 0) (opS l 1) (budgetOf l) with
  | .overBudget k => .err .budgetExceeded .none 0 k
  | .exhausted k => .err .keyNotFound .none 0 k
  | .found d k => .ok [d] [] k

/-- CRACK (R186, R187): the stages in order, each `raise` ending the command with its stage and the
candidates tested so far; both scans have the budget each (10_state.md R33). -/
def crackCmd (memWords : Nat) (l : Latch) : CmdOutcome :=
  let e := opS l 0
  let n := opS l 1
  if ¬ rangeOk memWords l then .err .lengthExceeded .args 0 0
  else
    match factorScan n (budgetOf l) with
    | .overBudget k => .err .budgetExceeded .factorize 0 k
    | .exhausted k => .err .primeOrUnfactorable .factorize 0 k
    | .found p k =>
      let q := n / p
      let phi := totient p q
      match recoverScan e phi (budgetOf l) with
      | .overBudget j => .err .budgetExceeded .recover 0 (k + j)
      | .exhausted j => .err .keyNotFound .recover 0 (k + j)
      | .found d j => cipherMap d.toNat n l .decrypt [p, q, phi, d] (k + j)

/-- The meaning of FACTORIZE (R181). -/
def execFactorize (s : State) : Host.Outcome State Fault Refusal := commit s (factorizeCmd s.inputs)

/-- The meaning of TOTIENT (R183). -/
def execTotient (s : State) : Host.Outcome State Fault Refusal := commit s (totientCmd s.inputs)

/-- The meaning of RECOVERD (R185). -/
def execRecoverd (s : State) : Host.Outcome State Fault Refusal := commit s (recoverdCmd s.inputs)

/-- The meaning of CRACK (R186). -/
def execCrack (s : State) : Host.Outcome State Fault Refusal :=
  commit s (crackCmd s.build.memWords s.inputs)

end Sys2Proof.Machine
end

