-- ==== Sys2Proof/Machine/KeyGenerator.lean ====
section
/-! DEFINITION. The KeyGenerator family: KEYGEN and KEYGEN_AUTO (41_keygen.md). -/

namespace Sys2Proof.Machine

/-- What `key_base(p, q)` yields: the error it raises, or `n` and `phi` (R141). -/
inductive KeyBase
  | error (code : ErrCode)
  | ok (n phi : Int)
  deriving DecidableEq, Repr

/-- `key_base(p, q)` (R141). -/
def keyBase (p q : Int) : KeyBase :=
  if p ≤ 0 ∨ q ≤ 0 then .error .domain
  else if p * q > maxS64 then .error .range
  else .ok (p * q) ((p - 1) * (q - 1))

/-- KEYGEN (R142). The last arm is the NONE of `ext_inverse`, which R142 derives is never reached. -/
def keygenCmd (l : Latch) : CmdOutcome :=
  let p := opS l 0
  let q := opS l 1
  let e := opS l 2
  match keyBase p q with
  | .error code => raise code
  | .ok n phi =>
    if ¬ (1 ≤ e ∧ e < phi) then raise .invalidPublicExponent
    else if euclid e phi ≠ 1 then raise .invalidPublicExponent
    else
      match extInverse e phi with
      | some d => complete [p, q, n, phi, e, d]
      | none => raise .noInverse

/-- KEYGEN_AUTO (R143). The `none` arm is the NONE of `ext_inverse`, which R143 derives is never
reached. -/
def keygenAutoCmd (l : Latch) : CmdOutcome :=
  let p := opS l 0
  let q := opS l 1
  match keyBase p q with
  | .error code => raise code
  | .ok n phi =>
    match chooseE phi (budgetOf l) with
    | .overBudget k => .err .budgetExceeded .none 0 k
    | .exhausted k => .err .notFound .none 0 k
    | .found e k =>
      match extInverse e phi with
      | some d => .ok [p, q, n, phi, e, d] [] k
      | none => .err .noInverse .none 0 k

/-- The meaning of KEYGEN (R142). -/
def execKeygen (s : State) : Host.Outcome State Fault Refusal := commit s (keygenCmd s.inputs)

/-- The meaning of KEYGEN_AUTO (R143). -/
def execKeygenAuto (s : State) : Host.Outcome State Fault Refusal := commit s (keygenAutoCmd s.inputs)

end Sys2Proof.Machine
end

