-- ==== Sys2Proof/Machine/ModularArithmetic.lean ====
section
/-! DEFINITION. The ModularArithmetic family: GCD, COPRIME, MODPOW, MODINV, CHOOSEE
(40_modular_arithmetic.md). Each command is a function of its latch (00_scope.md R14), and its meaning
commits that outcome. -/

namespace Sys2Proof.Machine

/-- GCD (R112). -/
def gcdCmd (l : Latch) : CmdOutcome :=
  let g : Int := euclid (opS l 0) (opS l 1)
  if g > maxS64 then raise .range else complete [g]

/-- COPRIME (R113). -/
def coprimeCmd (l : Latch) : CmdOutcome :=
  complete [if euclid (opS l 0) (opS l 1) = 1 then 1 else 0]

/-- MODPOW (R115). -/
def modpowCmd (l : Latch) : CmdOutcome :=
  let base := opS l 0
  let exp := opS l 1
  let m := opS l 2
  if m ≤ 0 then raise .domain
  else if exp < 0 then raise .domain
  else complete [modpow base exp.toNat m]

/-- MODINV (R117). -/
def modinvCmd (l : Latch) : CmdOutcome :=
  let e := opS l 0
  let phi := opS l 1
  if phi ≤ 0 then raise .domain
  else if phi = 1 then raise .noInverse
  else
    match extInverse e phi with
    | none => raise .noInverse
    | some d => complete [d]

/-- CHOOSEE (R119). -/
def chooseeCmd (l : Latch) : CmdOutcome :=
  match chooseE (opS l 0) (budgetOf l) with
  | .overBudget k => .err .budgetExceeded .none 0 k
  | .exhausted k => .err .notFound .none 0 k
  | .found v k => .ok [v] [] k

/-- The meaning of GCD (R112). -/
def execGcd (s : State) : Host.Outcome State Fault Refusal := commit s (gcdCmd s.inputs)

/-- The meaning of COPRIME (R113). -/
def execCoprime (s : State) : Host.Outcome State Fault Refusal := commit s (coprimeCmd s.inputs)

/-- The meaning of MODPOW (R115). -/
def execModpow (s : State) : Host.Outcome State Fault Refusal := commit s (modpowCmd s.inputs)

/-- The meaning of MODINV (R117). -/
def execModinv (s : State) : Host.Outcome State Fault Refusal := commit s (modinvCmd s.inputs)

/-- The meaning of CHOOSEE (R119). -/
def execChoosee (s : State) : Host.Outcome State Fault Refusal := commit s (chooseeCmd s.inputs)

end Sys2Proof.Machine
end

