-- ==== Sys2Proof/Machine/Dispatch.lean ====
section
/-! DEFINITION. One arm per command. -/

namespace Sys2Proof.Machine

/-- A command's completion: its outcome computed from the latch and committed (60_exceptions.md R212). -/
def exec (i : Instr) (s : State) : Host.Outcome State Fault Refusal :=
  match i with
  | .gcd => Sys2Proof.Machine.execGcd s
  | .coprime => Sys2Proof.Machine.execCoprime s
  | .modpow => Sys2Proof.Machine.execModpow s
  | .modinv => Sys2Proof.Machine.execModinv s
  | .choosee => Sys2Proof.Machine.execChoosee s
  | .keygen => Sys2Proof.Machine.execKeygen s
  | .keygenAuto => Sys2Proof.Machine.execKeygenAuto s
  | .encrypt => Sys2Proof.Machine.execEncrypt s
  | .decrypt => Sys2Proof.Machine.execDecrypt s
  | .factorize => Sys2Proof.Machine.execFactorize s
  | .totient => Sys2Proof.Machine.execTotient s
  | .recoverd => Sys2Proof.Machine.execRecoverd s
  | .crack => Sys2Proof.Machine.execCrack s

end Sys2Proof.Machine
end

