-- ==== Sys2Proof/Machine/Bus.lean ====
section
/-! DEFINITION. The host bus: the register map (10_state.md R23), reads and writes of registers and symbol
words (R24 to R26, R41, R44, 20_memory.md R61), and the error response (20_memory.md R65). -/

namespace Sys2Proof.Machine

/-- The offset of a register (10_state.md R23). -/
def regOffset : Reg → Nat
  | .id => 0x0000
  | .cap => 0x0008
  | .ctrl => 0x0010
  | .status => 0x0018
  | .cmd => 0x0020
  | .budget => 0x0028
  | .iters => 0x0030
  | .errInfo => 0x0038
  | .op i => 0x0040 + 8 * i.val
  | .res i => 0x0080 + 8 * i.val

/-- The offset a target stands at. -/
def targetOffset : Target → Nat
  | .reg r => regOffset r
  | .sym i => symOffset i

/-- The register of index `k = offset / 8` below `0x00C0` (10_state.md R23). -/
def decodeRegister (k : Nat) : Option Reg :=
  if h : 8 ≤ k ∧ k < 16 then some (.op ⟨k - 8, by omega⟩)
  else if h : 16 ≤ k ∧ k < 24 then some (.res ⟨k - 16, by omega⟩)
  else
    match k with
    | 0 => some .id
    | 1 => some .cap
    | 2 => some .ctrl
    | 3 => some .status
    | 4 => some .cmd
    | 5 => some .budget
    | 6 => some .iters
    | 7 => some .errInfo
    | _ => none

/-- What an offset of the window names; none where it is misaligned or reserved (20_memory.md R65). -/
def decodeOffset (memWords off : Nat) : Option Target :=
  if off % 8 ≠ 0 then none
  else if off < 0x1000 then (decodeRegister (off / 8)).map .reg
  else if off < 0x1000 + 8 * memWords then some (.sym ((off - 0x1000) / 8))
  else none

/-- The value a register reads as. A read has no side effect, and while BUSY it returns what stood
before the command (10_state.md R44, 20_memory.md R71). -/
def readRegister (s : State) : Reg → Word
  | .id => idWord
  | .cap => capWord s.build
  | .ctrl => ctrlWord s
  | .status => statusWord s
  | .cmd => s.cmd
  | .budget => s.budget
  | .iters => s.iters
  | .errInfo => s.errInfo
  | .op i => s.ops.get i
  | .res i => s.res.get i

/-- A host read: its value is the bus response. An unwritten symbol word gives a draw
(20_memory.md R61). -/
def readTarget (s : State) : Target → State
  | .reg r => { s with resp := some (.readOk (readRegister s r)) }
  | .sym i =>
    match s.mem.loadSym i with
    | some w => { s with resp := some (.readOk w) }
    | none => { s with resp := some (.readOk (Config.draw s.draws)), draws := s.draws + 1 }

/-- A write while BUSY to CMD, BUDGET, an operand register or a symbol word is dropped and sets WERR;
while IDLE it takes place (10_state.md R44). -/
def writeUnlessBusy (s : State) (write : State → State) : State :=
  if s.busy then { s with werr := true } else write s

/-- A host write to CTRL (10_state.md R25): SRST performs the soft reset, which leaves IE = 0; otherwise
IE takes bit 0. -/
def writeCtrl (s : State) (v : Word) : State :=
  if v.getLsbD 1 then softReset s else { s with ie := v.getLsbD 0 }

/-- A host write to STATUS (10_state.md R26): bit 1 clears DONE, bit 2 clears WERR, nothing else. -/
def writeStatus (s : State) (v : Word) : State :=
  { s with done := s.done && !v.getLsbD 1, werr := s.werr && !v.getLsbD 2 }

/-- A host write to a register (10_state.md R21, R24, R25, R26, R32, R41, R44). -/
def writeRegister (s : State) (r : Reg) (v : Word) : State :=
  match r with
  | .ctrl => writeCtrl s v
  | .status => writeStatus s v
  | .cmd => writeUnlessBusy s (fun s => startCommand s v)
  | .budget => writeUnlessBusy s (fun s => { s with budget := v })
  | .op i => writeUnlessBusy s (fun s => { s with ops := s.ops.set i v })
  | .id | .cap | .iters | .errInfo | .res _ => s

/-- A host write, with its normal response. -/
def writeTarget (s : State) (t : Target) (v : Word) : State :=
  match t with
  | .reg r => { writeRegister s r v with resp := some .writeOk }
  | .sym i =>
    { writeUnlessBusy s (fun s => { s with mem := s.mem.storeSym i v }) with resp := some .writeOk }

/-- The error response (20_memory.md R65): nothing is written, a read returns 0, WERR is set. -/
def errorResponse (s : State) (k : AccessKind) : State :=
  match k with
  | .read => { s with werr := true, resp := some .readError }
  | .write _ => { s with werr := true, resp := some .writeError }

/-- The data an answered access returns: an erroring read returns 0 (20_memory.md R65). -/
def Response.data : Response → Option Word
  | .readOk v => some v
  | .readError => some 0
  | .writeOk | .writeError => none

/-- The offset an access has in the block's window `[BASE, BASE + 64 KiB)`; none if it lies outside
(20_memory.md R63, assumption log 4). -/
def windowOffset (b : Build) (addr : Nat) : Option Nat :=
  if b.base ≤ addr ∧ addr < b.base + 65536 then some (addr - b.base) else none

/-- What an access inside the window names; none where it gets the error response
(20_memory.md R65). -/
def accessTarget (memWords off bytes : Nat) : Option Target :=
  if bytes = 8 then decodeOffset memWords off else none

/-- One host bus access (20_memory.md R64, R65). One outside the window is not the block's: the block
does nothing and gives no response. -/
def busAccess (s : State) (a : Access) : State :=
  match windowOffset s.build a.addr with
  | none => { s with resp := none }
  | some off =>
    match accessTarget s.build.memWords off a.bytes with
    | none => errorResponse s a.kind
    | some t =>
      match a.kind with
      | .read => readTarget s t
      | .write v => writeTarget s t v

end Sys2Proof.Machine
end

