-- ==== Sys2Proof/Machine/HostProgram.lean ====
section
/-! DEFINITION. The host's program: the notation of 30_encoding.md R95, its pseudo-instructions (R96), the
bus access of each line, and the host's turn. -/

namespace Sys2Proof.Machine

/-- A 64-bit read at an offset of the window: `MemRead(BASE + off, 8)` (20_memory.md R64). -/
def memRead (b : Build) (off : Nat) : Access := ⟨b.base + off, 8, .read⟩

/-- A 64-bit write at an offset of the window: `MemWrite(BASE + off, 8, v)` (20_memory.md R64). -/
def memWrite (b : Build) (off : Nat) (v : Word) : Access := ⟨b.base + off, 8, .write v⟩

/-- The bus access of a line (30_encoding.md R95); one turn of `WAIT` is a read of STATUS (R96). -/
def hostOpAccess (b : Build) : HostOp → Access
  | .wr r v => memWrite b (regOffset r) (enc64 v)
  | .rd r => memRead b (regOffset r)
  | .wrm i v => memWrite b (symOffset i) (enc64 v)
  | .rdm i => memRead b (symOffset i)
  | .raw a => a
  | .wait => memRead b (regOffset .status)

/-- The host code of `WAIT`: `if (value & 1) goto L`, on the value the STATUS read returned (R96). -/
def waitsAgain (r : Option Response) : Bool :=
  match r.bind Response.data with
  | some v => v.getLsbD 0
  | none => false

/-- What is left of the program after its next line has run: `WAIT` stays while its read saw BUSY. -/
def programAfter (op : HostOp) (rest : List HostOp) (r : Option Response) : List HostOp :=
  match op with
  | .wait => if waitsAgain r then .wait :: rest else rest
  | .wr _ _ | .rd _ | .wrm _ _ | .rdm _ | .raw _ => rest

/-- The host's turn: the bus access of its next line, if it has one. -/
def hostTurn (s : State) : State :=
  match s.program with
  | [] => s
  | op :: rest =>
    let t := busAccess s (hostOpAccess s.build op)
    { t with program := programAfter op rest t.resp }

/-- `CMD <mnemonic>` (R96). -/
def asmCmd (i : Instr) : List HostOp := [.wr .cmd (encode i).toNat]

/-- `WAIT` (R96). -/
def asmWait : List HostOp := [.wait]

/-- `RUN <mnemonic>` (R96). -/
def asmRun (i : Instr) : List HostOp := asmCmd i ++ asmWait

/-- `ACK`: clears DONE and WERR (R96). -/
def asmAck : List HostOp := [.wr .status 0x6]

/-- `SETOPS v0, v1, …, vk` from operand register `i` on (R96); past `OP7` there is no register. -/
def asmSetopsFrom : Nat → List Int → List HostOp
  | _, [] => []
  | i, v :: vs => (if h : i < 8 then [HostOp.wr (.op ⟨i, h⟩) v] else []) ++ asmSetopsFrom (i + 1) vs

/-- `SETOPS v0, v1, …, vk` (R96). -/
def asmSetops (vs : List Int) : List HostOp := asmSetopsFrom 0 vs

/-- `SRST` (R96). -/
def asmSrst : List HostOp := [.wr .ctrl 0x2]

end Sys2Proof.Machine
end

