-- ==== Sys2Proof/Machine/Agents.lean ====
section
/-! DEFINITION. The agents' turns and the schedule (70_reset_and_hazards.md R250). -/

namespace Sys2Proof.Machine

/-- The engine's turn (R250): while BUSY it completes the latched command, by the rule of its decoding,
or by 30_encoding.md R94 where that is ILLEGAL; while IDLE it has no step. -/
def engineTurn (s : State) : Host.Outcome State Fault Refusal :=
  match s.engine with
  | .idle => .next s
  | .busy l =>
    match decode l.cmd with
    | .command i => exec i s
    | .illegal _ => completeIllegal s

/-- Whose turn it is, and the schedule after it. Past the schedule's end the engine completes a command
in flight before the host goes on (assumption log 1: this is R250's weak fairness). -/
def nextTurn (s : State) : Agent × List Agent :=
  match s.schedule with
  | a :: rest => (a, rest)
  | [] => (if s.busy then .engine else .host, [])

/-- One agent's turn (R250). -/
def turnOf (a : Agent) (s : State) : Host.Outcome State Fault Refusal :=
  match a with
  | .host => .next (hostTurn s)
  | .engine => engineTurn s
  | .platform => .next (powerOnReset s)

/-- One step of the machine: the scheduled agent takes its turn. -/
def stepAgents (s : State) : Host.Outcome State Fault Refusal :=
  turnOf (nextTurn s).1 { s with schedule := (nextTurn s).2 }

/-- The schedule under which the engine moves next and the rest is as before. -/
def engineFirst : List Agent → List Agent
  | [] => []
  | .engine :: rest => .engine :: rest
  | .host :: rest => .engine :: .host :: rest
  | .platform :: rest => .engine :: .platform :: rest

/-- The state in which the command word `w` has just been accepted and the engine moves next
(60_exceptions.md R210, assumption log 2). -/
def withCommand (s : State) (w : Word) : State :=
  { startCommand s w with schedule := engineFirst s.schedule }

end Sys2Proof.Machine
end

