-- ==== Sys2Proof/Machine/Step.lean ====
section
/-! DEFINITION. The machine's step, and a state whose next step runs a given command word. -/

namespace Sys2Proof.Machine

/-- One step: the agent whose turn it is moves (70_reset_and_hazards.md R250). -/
def step (s : State) : Host.Outcome State Fault Refusal := stepAgents s

/-- `s` with the instruction of bits `w` (the low `nbits`, zeros above) accepted as a CMD write, so that
the very next step is its completion: the block fetches nothing and takes its commands from CMD
(10_state.md R27, assumption log 2). -/
def State.withFetchWord (s : State) (nbits w : Nat) : State :=
  withCommand s (BitVec.ofNat 64 (w % 2 ^ nbits))

end Sys2Proof.Machine
end

