-- ==== Sys2Proof/Safety.lean ====
section
/-! DEFINITION. The terms claims are stated in: the completion states of 60_exceptions.md R212 written out,
a safe step, the invariants, and the end of a run (70_reset_and_hazards.md R255). -/

namespace Sys2Proof.Machine

/-- The state R212 gives on `Ok(res[0..7], writes, iters)`, where `mem` is the symbol memory after the
writes. -/
def okState (s : State) (res : Bank) (mem : Memory) (iters : Nat) : State :=
  { s with
    res := res, mem := mem, errCode := .ok, errStage := .none, errInfo := 0
    iters := BitVec.ofNat 64 iters, engine := .idle, done := true }

/-- The state R212 gives on `Err(code, stage, info, iters)`: RES 0, no symbol written. -/
def errState (s : State) (code : ErrCode) (stage : Stage) (info iters : Nat) : State :=
  { s with
    res := Bank.zero, errCode := code, errStage := stage, errInfo := BitVec.ofNat 64 info
    iters := BitVec.ofNat 64 iters, engine := .idle, done := true }

/-- The bank with `w` in register 0 and 0 elsewhere. -/
def Bank.one (w : Word) : Bank := ⟨w, 0, 0, 0, 0, 0, 0, 0⟩

/-- A scan's budget admits `k` candidates: `BUDGET = 0` (no cap) or `k ≤ BUDGET` (10_state.md R32, R33). -/
def admits (l : Latch) (k : Nat) : Prop := budgetOf l = 0 ∨ k ≤ budgetOf l

/-- `v` is the first value in `[2, phi)` coprime with `phi` (40_modular_arithmetic.md R118). -/
def FirstCoprime (phi v : Int) : Prop :=
  2 ≤ v ∧ v < phi ∧ Int.gcd v phi = 1 ∧ ∀ u, 2 ≤ u → u < v → Int.gcd u phi ≠ 1

/-- `p` is the first value in `[2, n)` that divides `n` (43_cracker.md R180). -/
def FirstDivisor (n p : Int) : Prop :=
  2 ≤ p ∧ p < n ∧ p ∣ n ∧ ∀ u, 2 ≤ u → u < p → ¬ u ∣ n

/-- `d` is the first value in `[1, phi)` with `(e·d) mod phi = 1` (43_cracker.md R184). -/
def FirstInverse (e phi d : Int) : Prop :=
  1 ≤ d ∧ d < phi ∧ (e * d) % phi = 1 ∧ ∀ u, 1 ≤ u → u < d → (e * u) % phi ≠ 1

/-- `n` is prime or `n ≤ 1`, the cause of E_PRIME_OR_UNFACTORABLE (43_cracker.md R181). -/
def PrimeOrUnit (n : Int) : Prop := n ≤ 1 ∨ Nat.Prime n.toNat

/-- Source symbol `i` of the snapshot is written and holds `x`. -/
def SourceSymbol (l : Latch) (i : Nat) (x : Int) : Prop :=
  ∃ w, l.sym0.loadSym (srcOf l + i) = some w ∧ s64 w = x

/-- Every source symbol is written and lies in `[0, n)` (42_cipher.md R162). -/
def SymbolsInRange (l : Latch) (n : Int) : Prop :=
  ∀ i, i < lenOf l → ∃ x, SourceSymbol l i x ∧ 0 ≤ x ∧ x < n

/-- `i` is the lowest index of a source symbol out of `[0, n)` (42_cipher.md R162). -/
def FirstBadSymbol (l : Latch) (n : Int) (i : Nat) : Prop :=
  i < lenOf l ∧ (∃ x, SourceSymbol l i x ∧ (x < 0 ∨ n ≤ x)) ∧
    ∀ j, j < i → ∃ x, SourceSymbol l j x ∧ 0 ≤ x ∧ x < n

/-- `m` is the symbol memory after the element-wise power map: `Sym[DST+i] = Sym0[SRC+i]^k mod n` for
every `i` in `[0, LEN)`, and every byte outside `[DST, DST+LEN)` as it was (42_cipher.md R161,
20_memory.md R68). -/
def PowerMapped (s : State) (k : Nat) (n : Int) (m : Memory) : Prop :=
  (∀ i, i < lenOf s.inputs → ∃ x, SourceSymbol s.inputs i x ∧
    m.loadSym (dstOf s.inputs + i) = some (enc64 (x ^ k % n))) ∧
  (∀ a, (a < symOffset (dstOf s.inputs) ∨ symOffset (dstOf s.inputs + lenOf s.inputs) ≤ a) →
    m.loadByte a = s.mem.loadByte a)

/-- The step neither faults nor is refused. -/
def SafeStep (s : State) : Prop := ∃ t, step s = .next t

/-- Every word of the source range `[SRC, SRC+LEN)` is written in the snapshot (the host's duty,
70_reset_and_hazards.md R256). -/
def SourceWritten (l : Latch) : Prop :=
  ∀ i, i < lenOf l → (l.sym0.loadSym (srcOf l + i)).isSome

/-- The commands that read and write the symbol memory (20_memory.md R60). -/
def usesSymbols : Instr → Bool
  | .encrypt | .decrypt | .crack => true
  | .gcd | .coprime | .modpow | .modinv | .choosee | .keygen | .keygenAuto => false
  | .factorize | .totient | .recoverd => false

/-- The build parameters are in their legal ranges (00_scope.md R7, 20_memory.md R63). -/
def BuildLegal (s : State) : Prop := s.build.legal = true

/-- Each listed byte belongs to a symbol word of the memory all of whose eight bytes are listed: words are
written whole (20_memory.md R60, R69, R70). -/
def Memory.wholeWords (m : Memory) (memWords : Nat) : Prop :=
  ∀ a, (m.loadByte a).isSome →
    ∃ i, i < memWords ∧ symOffset i ≤ a ∧ a < symOffset i + 8 ∧
      ∀ k, k < 8 → (m.loadByte (symOffset i + k)).isSome

/-- The symbol memory is in canonical form and made of whole words. -/
def MemoryWhole (s : State) : Prop := s.mem.wf ∧ s.mem.wholeWords s.build.memWords

/-- While BUSY the latch equals the live values and DONE is 0 (10_state.md R38, R29). -/
def LatchLive (s : State) : Prop :=
  ∀ l, s.engine = .busy l → l = s.latchNow s.cmd ∧ s.done = false

/-- What the last completion (or a reset) leaves in the outcome registers: an error has zeroed the results
(60_exceptions.md R214), a success has stage 0 (10_state.md R31), stage 3 is never reported
(43_cracker.md R186), and ERRINFO is nonzero only after E_SYMBOL_OUT_OF_RANGE (10_state.md R37). -/
def OutcomeClean (s : State) : Prop :=
  (s.errCode ≠ .ok → s.res = Bank.zero) ∧
  (s.errCode = .ok → s.errStage = .none) ∧
  s.errStage ≠ .totient ∧
  (s.errInfo ≠ 0 → s.errCode = .symbolOutOfRange)

/-- Every result register holds a value in `[0, 2^63-1]` (60_exceptions.md R213). -/
def ResultsNonneg (s : State) : Prop := ∀ i, 0 ≤ s64 (s.res.get i)

/-- The machine's invariant. -/
def State.Inv (s : State) : Prop :=
  BuildLegal s ∧ MemoryWhole s ∧ LatchLive s ∧ OutcomeClean s ∧ ResultsNonneg s

/-- The end of a command run: IDLE with DONE set (70_reset_and_hazards.md R255). -/
def RunEnded (s : State) : Prop := s.busy = false ∧ s.done = true

/-- The end of a host program: its last access has completed and the phase is IDLE
(70_reset_and_hazards.md R255). -/
def ProgramEnded (s : State) : Prop := s.program = [] ∧ s.busy = false

/-- The error codes each command can complete with (60_exceptions.md R211, the column "raised by"). -/
def codesOf : Instr → List ErrCode
  | .gcd => [.ok, .range]
  | .coprime => [.ok]
  | .modpow => [.ok, .domain]
  | .modinv => [.ok, .noInverse, .domain]
  | .choosee => [.ok, .notFound, .budgetExceeded]
  | .keygen => [.ok, .invalidPublicExponent, .domain, .range]
  | .keygenAuto => [.ok, .notFound, .budgetExceeded, .domain, .range]
  | .encrypt | .decrypt => [.ok, .symbolOutOfRange, .lengthExceeded, .domain]
  | .factorize => [.ok, .primeOrUnfactorable, .budgetExceeded]
  | .totient => [.ok, .domain, .range]
  | .recoverd => [.ok, .keyNotFound, .budgetExceeded]
  | .crack => [.ok, .primeOrUnfactorable, .keyNotFound, .symbolOutOfRange, .lengthExceeded, .budgetExceeded]

end Sys2Proof.Machine
end

