-- ==== Sys2Proof/Certificates/Slice0/Obligations.lean ====
section
/-! DEFINITION. The statements for the provers, from the numbered rules of spec/. -/

open Sys2Proof Sys2Proof.Machine

/-! ### Reset -/

/-- R240: the platform's power-on reset, from any state: every register at its reset value, ID and CAP
constant, the engine IDLE, no interrupt, and no symbol word written. -/
def Obligations.PowerOnResetClearsEverything : Prop :=
  ∀ (s : State) (rest : List Agent), s.schedule = .platform :: rest →
    ∃ t, step s = .next t ∧ t.ops = Bank.zero ∧ t.res = Bank.zero ∧ t.cmd = 0 ∧ t.ie = false ∧
      t.done = false ∧ t.werr = false ∧ t.errCode = .ok ∧ t.errStage = .none ∧ t.budget = 0 ∧
      t.iters = 0 ∧ t.errInfo = 0 ∧ t.engine = .idle ∧ t.irq = false ∧
      ctrlWord t = 0 ∧ statusWord t = 0 ∧
      readRegister t .id = readRegister s .id ∧ readRegister t .cap = readRegister s .cap ∧
      (∀ a, t.mem.loadByte a = none) ∧ t.build = s.build

/-- R257: the machine's state after reset is the clean entry: IDLE, every register at its reset value, no
symbol word written, no interrupt; the next step, with nothing asked of the block, leaves it there. -/
def Obligations.ResetIsCleanEntry : Prop :=
  State.reset.engine = .idle ∧ State.reset.ops = Bank.zero ∧ State.reset.res = Bank.zero ∧
    State.reset.cmd = 0 ∧ ctrlWord State.reset = 0 ∧ statusWord State.reset = 0 ∧
    State.reset.budget = 0 ∧ State.reset.iters = 0 ∧ State.reset.errInfo = 0 ∧
    (∀ i, State.reset.mem.loadSym i = none) ∧ State.reset.irq = false ∧
    step State.reset = .next State.reset

/-- The invariant holds after reset. -/
def Obligations.ResetMeetsInvariant : Prop := State.reset.Inv

/-- R35 and R36: ID is its constant, and CAP holds MEM_WORDS, the width, the register counts and the
version in their fields. -/
def Obligations.IdAndCapFields : Prop :=
  ∀ s : State, s.build.memWords < 2 ^ 32 →
    readRegister s .id = 0x53584E5400010007 ∧
    ((readRegister s .cap).extractLsb' 0 32).toNat = s.build.memWords ∧
    (readRegister s .cap).extractLsb' 32 8 = 64 ∧
    (readRegister s .cap).extractLsb' 40 8 = 8 ∧
    (readRegister s .cap).extractLsb' 48 8 = 8 ∧
    (readRegister s .cap).extractLsb' 56 8 = 1

/-! ### Encoding -/

/-- R91: decoding is total; a word decodes to a command exactly when it is that command's opcode
zero-extended, the opcodes being those listed; every other word is ILLEGAL, and one in the latch completes
with E_ILLEGAL_CMD. -/
def Obligations.DecodeExactlyTheTable : Prop :=
  (∀ i : Instr, (i, opcode i) ∈ [(.gcd, 0x01), (.coprime, 0x02), (.modpow, 0x03), (.modinv, 0x04),
    (.choosee, 0x05), (.keygen, 0x10), (.keygenAuto, 0x11), (.encrypt, 0x20), (.decrypt, 0x21),
    (.factorize, 0x30), (.totient, 0x31), (.recoverd, 0x32), (.crack, 0x33)]) ∧
  (∀ (w : Word) (i : Instr), decode w = .command i ↔ w = (opcode i).zeroExtend 64) ∧
  (∀ w : Word, (∀ i, decode w ≠ .command i) ↔ ∃ why, decode w = .illegal why) ∧
  (∀ (s : State) (l : Latch), s.engine = .busy l → (∀ i, l.cmd ≠ (opcode i).zeroExtend 64) →
    engineTurn s = .next (errState s .illegalCmd .none 0 0))

/-- Decoding and encoding agree on bytes, both ways: the eight little-endian bytes of a well-formed
command's word decode to it and leave the rest, and bytes that decode to a command are exactly those. -/
def Obligations.DecodeEncodeAgreeOnBytes : Prop :=
  (∀ (i : Instr) (rest : List Byte), i.wellFormed = true →
    decodeBytes (leBytes 8 (encode i).toNat ++ rest) = (.command i, rest)) ∧
  (∀ (bs rest : List Byte) (i : Instr), decodeBytes bs = (.command i, rest) →
    bs = leBytes 8 (encode i).toNat ++ rest)

/-- The register map, both ways: an offset names a register or symbol word exactly at the offset R23
gives it, a symbol word only inside the memory; every other offset names nothing. -/
def Obligations.RegisterMapRoundTrip : Prop :=
  ∀ (n off : Nat) (t : Target),
    decodeOffset n off = some t ↔ (off = targetOffset t ∧ ∀ i, t = .sym i → i < n)

/-- The thirteen words of R92 and four words R94 and R97 call illegal, written out. -/
def Obligations.SampleWordsDecode : Prop :=
  decode 0x0000000000000001 = .command .gcd ∧ decode 0x0000000000000002 = .command .coprime ∧
  decode 0x0000000000000003 = .command .modpow ∧ decode 0x0000000000000004 = .command .modinv ∧
  decode 0x0000000000000005 = .command .choosee ∧ decode 0x0000000000000010 = .command .keygen ∧
  decode 0x0000000000000011 = .command .keygenAuto ∧ decode 0x0000000000000020 = .command .encrypt ∧
  decode 0x0000000000000021 = .command .decrypt ∧ decode 0x0000000000000030 = .command .factorize ∧
  decode 0x0000000000000031 = .command .totient ∧ decode 0x0000000000000032 = .command .recoverd ∧
  decode 0x0000000000000033 = .command .crack ∧
  decode 0x0000000000000103 = .illegal .reservedBits ∧ decode 0x8000000000000001 = .illegal .reservedBits ∧
  decode 0x0000000000000000 = .illegal .unassignedOpcode ∧
  decode 0x0000000000000034 = .illegal .unassignedOpcode

/-- A step runs the decoded command: when the engine is BUSY and has the turn, and the latched word's bytes
decode to a well-formed command, the step is that command's `exec` with the schedule moved on. -/
def Obligations.StepRunsDecodedCommand : Prop :=
  ∀ (s : State) (l : Latch) (i : Instr), s.engine = .busy l →
    (decodeBytes (leBytes 8 l.cmd.toNat)).1 = .command i → i.wellFormed = true →
    (∀ rest, s.schedule = .engine :: rest → step s = exec i { s with schedule := rest }) ∧
    (s.schedule = [] → step s = exec i s)

/-- R94: a word with a reserved bit set or an unlisted OPCODE, once accepted, completes with
E_ILLEGAL_CMD, stage 0, information 0, ITERS 0, RES 0, no symbol written, DONE set, and `irq` follows. -/
def Obligations.IllegalWordCompletes : Prop :=
  ∀ (s : State) (w : Word),
    (w.extractLsb' 8 56 ≠ 0 ∨ w.toNat % 256 ∉ [0x01, 0x02, 0x03, 0x04, 0x05, 0x10, 0x11, 0x20, 0x21, 0x30, 0x31, 0x32, 0x33]) →
    (startCommand s w).busy = true ∧
    engineTurn (startCommand s w) =
      .next { s with
        cmd := w, res := Bank.zero, errCode := .illegalCmd, errStage := .none, errInfo := 0, iters := 0
        engine := .idle, done := true } ∧
    (∀ t, engineTurn (startCommand s w) = .next t → t.irq = s.ie)

/-! ### ModularArithmetic -/

/-- R112: GCD is the gcd of the magnitudes, or E_RANGE exactly when that is `2^63`, which happens for three
operand pairs. -/
def Obligations.GcdCommand : Prop :=
  decode 0x01 = .command .gcd ∧
  ∀ (s : State) (l : Latch) (a b : Int), s.engine = .busy l → opS l 0 = a → opS l 1 = b →
    (Int.gcd a b ≤ 2 ^ 63 - 1 →
      exec .gcd s = .next (okState s (Bank.one (enc64 (Int.gcd a b))) s.mem 0)) ∧
    (Int.gcd a b = 2 ^ 63 → exec .gcd s = .next (errState s .range .none 0 0)) ∧
    (Int.gcd a b ≤ 2 ^ 63) ∧
    (Int.gcd a b = 2 ^ 63 ↔
      (a = -2 ^ 63 ∧ b = 0) ∨ (a = 0 ∧ b = -2 ^ 63) ∨ (a = -2 ^ 63 ∧ b = -2 ^ 63))

/-- R113: COPRIME is 1 when the gcd is 1 and 0 otherwise, and never fails. -/
def Obligations.CoprimeCommand : Prop :=
  decode 0x02 = .command .coprime ∧
  ∀ (s : State) (l : Latch) (a b : Int), s.engine = .busy l → opS l 0 = a → opS l 1 = b →
    exec .coprime s = .next (okState s (Bank.one (if Int.gcd a b = 1 then 1 else 0)) s.mem 0)

/-- R115: MODPOW is `base^exp mod m` in `[0, m)` (with `0^0 = 1`), or E_DOMAIN when `m ≤ 0` or
`exp < 0`. -/
def Obligations.ModpowCommand : Prop :=
  decode 0x03 = .command .modpow ∧
  ∀ (s : State) (l : Latch) (base e m : Int), s.engine = .busy l → opS l 0 = base → opS l 1 = e → opS l 2 = m →
    (0 < m → 0 ≤ e →
      exec .modpow s = .next (okState s (Bank.one (enc64 (base ^ e.toNat % m))) s.mem 0)) ∧
    (m ≤ 0 ∨ e < 0 → exec .modpow s = .next (errState s .domain .none 0 0))

/-- R117: MODINV is the unique inverse in `[0, phi)`, never 0; E_DOMAIN when `phi ≤ 0`; E_NO_INVERSE when
`phi = 1` or the gcd is not 1. -/
def Obligations.ModinvCommand : Prop :=
  decode 0x04 = .command .modinv ∧
  ∀ (s : State) (l : Latch) (e phi : Int), s.engine = .busy l → opS l 0 = e → opS l 1 = phi →
    (2 ≤ phi → Int.gcd e phi = 1 →
      ∃ d, 0 < d ∧ d < phi ∧ (e * d) % phi = 1 ∧
        (∀ d', 0 ≤ d' → d' < phi → (e * d') % phi = 1 → d' = d) ∧
        exec .modinv s = .next (okState s (Bank.one (enc64 d)) s.mem 0)) ∧
    (phi ≤ 0 → exec .modinv s = .next (errState s .domain .none 0 0)) ∧
    (phi = 1 → exec .modinv s = .next (errState s .noInverse .none 0 0)) ∧
    (2 ≤ phi → Int.gcd e phi ≠ 1 → exec .modinv s = .next (errState s .noInverse .none 0 0))

/-- R119: CHOOSEE is the first `v` in `[2, phi)` coprime with `phi`, after `v - 1` candidates, which exists
exactly when `phi ≥ 3`; E_NOT_FOUND when `phi ≤ 2`; E_BUDGET_EXCEEDED when `BUDGET ≠ 0` and
`v - 1 > BUDGET`. -/
def Obligations.ChooseeCommand : Prop :=
  decode 0x05 = .command .choosee ∧
  ∀ (s : State) (l : Latch) (phi : Int), s.engine = .busy l → opS l 0 = phi →
    (3 ≤ phi → ∃ v, FirstCoprime phi v) ∧
    (∀ v, FirstCoprime phi v → admits l (v - 1).toNat →
      exec .choosee s = .next (okState s (Bank.one (enc64 v)) s.mem (v - 1).toNat)) ∧
    (∀ v, FirstCoprime phi v → ¬ admits l (v - 1).toNat →
      exec .choosee s = .next (errState s .budgetExceeded .none 0 (budgetOf l))) ∧
    (phi ≤ 2 → exec .choosee s = .next (errState s .notFound .none 0 0))

/-! ### KeyGenerator -/

/-- R142: KEYGEN gives p, q, n, phi, e and the inverse d, or the first of its errors in order. -/
def Obligations.KeygenCommand : Prop :=
  decode 0x10 = .command .keygen ∧
  ∀ (s : State) (l : Latch) (p q e : Int), s.engine = .busy l → opS l 0 = p → opS l 1 = q → opS l 2 = e →
    (p ≤ 0 ∨ q ≤ 0 → exec .keygen s = .next (errState s .domain .none 0 0)) ∧
    (0 < p → 0 < q → p * q > 2 ^ 63 - 1 → exec .keygen s = .next (errState s .range .none 0 0)) ∧
    (0 < p → 0 < q → p * q ≤ 2 ^ 63 - 1 →
      (e < 1 ∨ (p - 1) * (q - 1) ≤ e ∨ Int.gcd e ((p - 1) * (q - 1)) ≠ 1) →
      exec .keygen s = .next (errState s .invalidPublicExponent .none 0 0)) ∧
    (0 < p → 0 < q → p * q ≤ 2 ^ 63 - 1 → 1 ≤ e → e < (p - 1) * (q - 1) →
      Int.gcd e ((p - 1) * (q - 1)) = 1 →
      ∃ d, 0 ≤ d ∧ d < (p - 1) * (q - 1) ∧ (e * d) % ((p - 1) * (q - 1)) = 1 ∧
        exec .keygen s = .next (okState s
          ⟨enc64 p, enc64 q, enc64 (p * q), enc64 ((p - 1) * (q - 1)), enc64 e, enc64 d, 0, 0⟩ s.mem 0))

/-- R143: KEYGEN_AUTO chooses the first coprime exponent, counts its candidates, and gives the key pair, or
the first of its errors in order. -/
def Obligations.KeygenAutoCommand : Prop :=
  decode 0x11 = .command .keygenAuto ∧
  ∀ (s : State) (l : Latch) (p q : Int), s.engine = .busy l → opS l 0 = p → opS l 1 = q →
    (p ≤ 0 ∨ q ≤ 0 → exec .keygenAuto s = .next (errState s .domain .none 0 0)) ∧
    (0 < p → 0 < q → p * q > 2 ^ 63 - 1 → exec .keygenAuto s = .next (errState s .range .none 0 0)) ∧
    (0 < p → 0 < q → p * q ≤ 2 ^ 63 - 1 → (p - 1) * (q - 1) ≤ 2 →
      exec .keygenAuto s = .next (errState s .notFound .none 0 0)) ∧
    (∀ e, 0 < p → 0 < q → p * q ≤ 2 ^ 63 - 1 → FirstCoprime ((p - 1) * (q - 1)) e →
      ¬ admits l (e - 1).toNat →
      exec .keygenAuto s = .next (errState s .budgetExceeded .none 0 (budgetOf l))) ∧
    (∀ e, 0 < p → 0 < q → p * q ≤ 2 ^ 63 - 1 → FirstCoprime ((p - 1) * (q - 1)) e →
      admits l (e - 1).toNat →
      ∃ d, 0 ≤ d ∧ d < (p - 1) * (q - 1) ∧ (e * d) % ((p - 1) * (q - 1)) = 1 ∧
        exec .keygenAuto s = .next (okState s
          ⟨enc64 p, enc64 q, enc64 (p * q), enc64 ((p - 1) * (q - 1)), enc64 e, enc64 d, 0, 0⟩ s.mem
          (e - 1).toNat))

/-- R140's invariants of every key pair that KEYGEN or KEYGEN_AUTO returns. -/
def Obligations.KeyPairInvariants : Prop :=
  ∀ (i : Instr) (s t : State), (i = .keygen ∨ i = .keygenAuto) → exec i s = .next t → t.errCode = .ok →
    ∃ p q n phi e d : Int,
      s64 (t.res.get 0) = p ∧ s64 (t.res.get 1) = q ∧ s64 (t.res.get 2) = n ∧ s64 (t.res.get 3) = phi ∧
      s64 (t.res.get 4) = e ∧ s64 (t.res.get 5) = d ∧ t.res.get 6 = 0 ∧ t.res.get 7 = 0 ∧
      n = p * q ∧ phi = (p - 1) * (q - 1) ∧ Int.gcd e phi = 1 ∧ (e * d) % phi = 1 ∧
      1 ≤ e ∧ e < phi ∧ 0 ≤ d ∧ d < phi ∧ 1 ≤ p ∧ 1 ≤ q ∧ 2 ≤ phi

/-! ### Cipher -/

/-- R163: ENCRYPT maps every source symbol `x` to `x^e mod n` at the same index of the destination, or the
first of its errors in order with the lowest offending index; with an unwritten source word the model
faults. -/
def Obligations.EncryptCommand : Prop :=
  decode 0x20 = .command .encrypt ∧
  ∀ (s : State) (l : Latch) (e n : Int), s.engine = .busy l → opS l 0 = e → opS l 1 = n →
    (n ≤ 0 ∨ e < 0 → exec .encrypt s = .next (errState s .domain .none 0 0)) ∧
    (0 < n → 0 ≤ e →
      (s.build.memWords < srcOf l + lenOf l ∨ s.build.memWords < dstOf l + lenOf l) →
      exec .encrypt s = .next (errState s .lengthExceeded .none 0 0)) ∧
    (0 < n → 0 ≤ e → srcOf l + lenOf l ≤ s.build.memWords →
      dstOf l + lenOf l ≤ s.build.memWords →
      (¬ SourceWritten l → exec .encrypt s = .fault .uninitSymbolRead) ∧
      (∀ i, SourceWritten l → FirstBadSymbol l n i →
        exec .encrypt s = .next (errState s .symbolOutOfRange .none i 0)) ∧
      (SymbolsInRange l n →
        ∃ m, PowerMapped s e.toNat n m ∧ exec .encrypt s = .next (okState s Bank.zero m 0)))

/-- R164: DECRYPT maps every source symbol `x` to `x^d mod n`, with the errors of ENCRYPT in the same
order. -/
def Obligations.DecryptCommand : Prop :=
  decode 0x21 = .command .decrypt ∧
  ∀ (s : State) (l : Latch) (d n : Int), s.engine = .busy l → opS l 0 = d → opS l 1 = n →
    (n ≤ 0 ∨ d < 0 → exec .decrypt s = .next (errState s .domain .none 0 0)) ∧
    (0 < n → 0 ≤ d →
      (s.build.memWords < srcOf l + lenOf l ∨ s.build.memWords < dstOf l + lenOf l) →
      exec .decrypt s = .next (errState s .lengthExceeded .none 0 0)) ∧
    (0 < n → 0 ≤ d → srcOf l + lenOf l ≤ s.build.memWords →
      dstOf l + lenOf l ≤ s.build.memWords →
      (¬ SourceWritten l → exec .decrypt s = .fault .uninitSymbolRead) ∧
      (∀ i, SourceWritten l → FirstBadSymbol l n i →
        exec .decrypt s = .next (errState s .symbolOutOfRange .none i 0)) ∧
      (SymbolsInRange l n →
        ∃ m, PowerMapped s d.toNat n m ∧ exec .decrypt s = .next (okState s Bank.zero m 0)))

/-- R165: for a key pair that KEYGEN or KEYGEN_AUTO returns from distinct primes, DECRYPT with `(d, n)` of
what ENCRYPT with `(e, n)` wrote completes and returns every symbol unchanged. -/
def Obligations.EncryptDecryptRoundTrip : Prop :=
  ∀ (i : Instr) (k k' u v x : State),
    -- the key pair
    (i = .keygen ∨ i = .keygenAuto) → exec i k = .next k' → k'.errCode = .ok →
    Nat.Prime (s64 (k'.res.get 0)).toNat → Nat.Prime (s64 (k'.res.get 1)).toNat →
    k'.res.get 0 ≠ k'.res.get 1 →
    -- the encryption
    opS u.inputs 0 = s64 (k'.res.get 4) → opS u.inputs 1 = s64 (k'.res.get 2) →
    exec .encrypt u = .next v → v.errCode = .ok →
    -- the decryption of what it wrote
    opS x.inputs 0 = s64 (k'.res.get 5) → opS x.inputs 1 = s64 (k'.res.get 2) →
    lenOf x.inputs = lenOf u.inputs →
    (∀ j, j < lenOf u.inputs →
      x.inputs.sym0.loadSym (srcOf x.inputs + j) = v.mem.loadSym (dstOf u.inputs + j)) →
    srcOf x.inputs + lenOf x.inputs ≤ x.build.memWords →
    dstOf x.inputs + lenOf x.inputs ≤ x.build.memWords →
    ∃ y, exec .decrypt x = .next y ∧ y.errCode = .ok ∧
      ∀ j, j < lenOf u.inputs →
        y.mem.loadSym (dstOf x.inputs + j) = u.inputs.sym0.loadSym (srcOf u.inputs + j)

/-! ### Cracker -/

/-- R181: FACTORIZE gives the first divisor `p` and `n/p` after `p - 1` candidates; the errors by scan
progress; a divisor exists exactly when `n` is neither prime nor at most 1. -/
def Obligations.FactorizeCommand : Prop :=
  decode 0x30 = .command .factorize ∧
  ∀ (s : State) (l : Latch) (n : Int), s.engine = .busy l → opS l 0 = n →
    (¬ PrimeOrUnit n ↔ ∃ p, FirstDivisor n p) ∧
    (∀ p, FirstDivisor n p → admits l (p - 1).toNat →
      exec .factorize s =
        .next (okState s ⟨enc64 p, enc64 (n / p), 0, 0, 0, 0, 0, 0⟩ s.mem (p - 1).toNat)) ∧
    (∀ p, FirstDivisor n p → ¬ admits l (p - 1).toNat →
      exec .factorize s = .next (errState s .budgetExceeded .none 0 (budgetOf l))) ∧
    (PrimeOrUnit n → admits l (n - 2).toNat →
      exec .factorize s = .next (errState s .primeOrUnfactorable .none 0 (n - 2).toNat)) ∧
    (PrimeOrUnit n → ¬ admits l (n - 2).toNat →
      exec .factorize s = .next (errState s .budgetExceeded .none 0 (budgetOf l)))

/-- R180's derived facts of what FACTORIZE returns: a prime `p` with `2 ≤ p ≤ q` and `p·q = n`. -/
def Obligations.FactorizeReturnsLeastPrime : Prop :=
  ∀ (s t : State), exec .factorize s = .next t → t.errCode = .ok →
    Nat.Prime (s64 (t.res.get 0)).toNat ∧ 2 ≤ s64 (t.res.get 0) ∧
    s64 (t.res.get 0) ≤ s64 (t.res.get 1) ∧
    s64 (t.res.get 0) * s64 (t.res.get 1) = opS s.inputs 0 ∧
    (s64 (t.res.get 0)).toNat = Nat.minFac (opS s.inputs 0).toNat

/-- R183 with R182: TOTIENT is `(p-1)(q-1)`, E_DOMAIN when an operand is not positive, E_RANGE when the
product does not fit. -/
def Obligations.TotientCommand : Prop :=
  decode 0x31 = .command .totient ∧
  ∀ (s : State) (l : Latch) (p q : Int), s.engine = .busy l → opS l 0 = p → opS l 1 = q →
    (p ≤ 0 ∨ q ≤ 0 → exec .totient s = .next (errState s .domain .none 0 0)) ∧
    (0 < p → 0 < q → (p - 1) * (q - 1) > 2 ^ 63 - 1 →
      exec .totient s = .next (errState s .range .none 0 0)) ∧
    (0 < p → 0 < q → (p - 1) * (q - 1) ≤ 2 ^ 63 - 1 →
      exec .totient s = .next (okState s (Bank.one (enc64 ((p - 1) * (q - 1)))) s.mem 0))

/-- R185: RECOVERD gives the first `d` in `[1, phi)` with `(e·d) mod phi = 1` after `d` candidates, which
exists exactly when `phi ≥ 2` and the gcd is 1; the errors by scan progress. -/
def Obligations.RecoverdCommand : Prop :=
  decode 0x32 = .command .recoverd ∧
  ∀ (s : State) (l : Latch) (e phi : Int), s.engine = .busy l → opS l 0 = e → opS l 1 = phi →
    ((2 ≤ phi ∧ Int.gcd e phi = 1) ↔ ∃ d, FirstInverse e phi d) ∧
    (∀ d, FirstInverse e phi d → admits l d.toNat →
      exec .recoverd s = .next (okState s (Bank.one (enc64 d)) s.mem d.toNat)) ∧
    (∀ d, FirstInverse e phi d → ¬ admits l d.toNat →
      exec .recoverd s = .next (errState s .budgetExceeded .none 0 (budgetOf l))) ∧
    (¬ (2 ≤ phi ∧ Int.gcd e phi = 1) → admits l (phi - 1).toNat →
      exec .recoverd s = .next (errState s .keyNotFound .none 0 (phi - 1).toNat)) ∧
    (¬ (2 ≤ phi ∧ Int.gcd e phi = 1) → ¬ admits l (phi - 1).toNat →
      exec .recoverd s = .next (errState s .budgetExceeded .none 0 (budgetOf l)))

/-- R184's derived agreement: for `phi ≥ 2` and gcd 1, RECOVERD without a budget and MODINV return the same
results. -/
def Obligations.RecoverdAgreesWithModinv : Prop :=
  ∀ s : State, 2 ≤ opS s.inputs 1 → Int.gcd (opS s.inputs 0) (opS s.inputs 1) = 1 →
    budgetOf s.inputs = 0 →
    ∃ t u, exec .recoverd s = .next t ∧ exec .modinv s = .next u ∧ t.errCode = .ok ∧ u.errCode = .ok ∧
      t.res = u.res ∧ t.iters = t.res.get 0

/-- R186 and R187: CRACK runs its stages in order, each failure ending the command with its stage and the
candidates tested so far; on success it gives p, q, phi, d and the decrypted symbols. -/
def Obligations.CrackCommand : Prop :=
  decode 0x33 = .command .crack ∧
  ∀ (s : State) (l : Latch) (e n : Int), s.engine = .busy l → opS l 0 = e → opS l 1 = n →
    -- stage 1
    ((s.build.memWords < srcOf l + lenOf l ∨ s.build.memWords < dstOf l + lenOf l) →
      exec .crack s = .next (errState s .lengthExceeded .args 0 0)) ∧
    (srcOf l + lenOf l ≤ s.build.memWords → dstOf l + lenOf l ≤ s.build.memWords →
      -- stage 2
      (PrimeOrUnit n → admits l (n - 2).toNat →
        exec .crack s = .next (errState s .primeOrUnfactorable .factorize 0 (n - 2).toNat)) ∧
      (PrimeOrUnit n → ¬ admits l (n - 2).toNat →
        exec .crack s = .next (errState s .budgetExceeded .factorize 0 (budgetOf l))) ∧
      (∀ p, FirstDivisor n p → ¬ admits l (p - 1).toNat →
        exec .crack s = .next (errState s .budgetExceeded .factorize 0 (budgetOf l))) ∧
      (∀ p phi, FirstDivisor n p → admits l (p - 1).toNat → phi = (p - 1) * (n / p - 1) →
        -- stage 4
        (¬ (2 ≤ phi ∧ Int.gcd e phi = 1) → admits l (phi - 1).toNat →
          exec .crack s = .next (errState s .keyNotFound .recover 0 ((p - 1).toNat + (phi - 1).toNat))) ∧
        (¬ (2 ≤ phi ∧ Int.gcd e phi = 1) → ¬ admits l (phi - 1).toNat →
          exec .crack s =
            .next (errState s .budgetExceeded .recover 0 ((p - 1).toNat + budgetOf l))) ∧
        (∀ d, FirstInverse e phi d → ¬ admits l d.toNat →
          exec .crack s =
            .next (errState s .budgetExceeded .recover 0 ((p - 1).toNat + budgetOf l))) ∧
        -- stage 5
        (∀ d, FirstInverse e phi d → admits l d.toNat →
          (¬ SourceWritten l → exec .crack s = .fault .uninitSymbolRead) ∧
          (∀ i, SourceWritten l → FirstBadSymbol l n i →
            exec .crack s = .next (errState s .symbolOutOfRange .decrypt i ((p - 1).toNat + d.toNat))) ∧
          (SymbolsInRange l n →
            ∃ m, PowerMapped s d.toNat n m ∧
              exec .crack s = .next (okState s
                ⟨enc64 p, enc64 (n / p), enc64 phi, enc64 d, 0, 0, 0, 0⟩ m ((p - 1).toNat + d.toNat))))))

/-- The cracking scenario of the source in general: for distinct primes `p < q`, an exponent coprime with
`(p-1)(q-1)`, and no budget, CRACK of what ENCRYPT wrote completes, recovers p and q, and returns every
symbol unchanged. -/
def Obligations.CrackUndoesEncrypt : Prop :=
  ∀ (p q : Nat) (u v x : State), Nat.Prime p → Nat.Prime q → p < q →
    opS u.inputs 1 = p * q → Int.gcd (opS u.inputs 0) ((p - 1) * (q - 1)) = 1 →
    exec .encrypt u = .next v → v.errCode = .ok →
    opS x.inputs 0 = opS u.inputs 0 → opS x.inputs 1 = opS u.inputs 1 → budgetOf x.inputs = 0 →
    lenOf x.inputs = lenOf u.inputs →
    (∀ j, j < lenOf u.inputs →
      x.inputs.sym0.loadSym (srcOf x.inputs + j) = v.mem.loadSym (dstOf u.inputs + j)) →
    srcOf x.inputs + lenOf x.inputs ≤ x.build.memWords →
    dstOf x.inputs + lenOf x.inputs ≤ x.build.memWords →
    ∃ y, exec .crack x = .next y ∧ y.errCode = .ok ∧
      s64 (y.res.get 0) = p ∧ s64 (y.res.get 1) = q ∧ s64 (y.res.get 2) = (p - 1) * (q - 1) ∧
      ∀ j, j < lenOf u.inputs →
        y.mem.loadSym (dstOf x.inputs + j) = u.inputs.sym0.loadSym (srcOf u.inputs + j)

/-! ### Every command: frame, errors, stops, budget -/

/-- The frame of a completion, for all thirteen commands: operands, CMD, CTRL.IE, WERR, BUDGET, the build
and everything outside the block are unchanged; the engine is IDLE and DONE set; every byte of memory is
unchanged but those of `[DST, DST+LEN)` for ENCRYPT, DECRYPT and CRACK. -/
def Obligations.CompletionFrame : Prop :=
  ∀ (i : Instr) (s t : State), exec i s = .next t →
    t.ops = s.ops ∧ t.cmd = s.cmd ∧ t.ie = s.ie ∧ t.werr = s.werr ∧ t.budget = s.budget ∧
    t.build = s.build ∧ t.draws = s.draws ∧ t.schedule = s.schedule ∧ t.program = s.program ∧
    t.resp = s.resp ∧ t.engine = .idle ∧ t.done = true ∧
    (usesSymbols i = false → ∀ a, t.mem.loadByte a = s.mem.loadByte a) ∧
    (∀ a, (a < symOffset (dstOf s.inputs) ∨ symOffset (dstOf s.inputs + lenOf s.inputs) ≤ a) →
      t.mem.loadByte a = s.mem.loadByte a)

/-- R214 and R217: a failing command leaves exactly its Err record: RES 0 and no symbol written, operand
registers and every other register as they were. -/
def Obligations.ErrorsArePrecise : Prop :=
  ∀ (i : Instr) (s t : State), exec i s = .next t → t.errCode ≠ .ok →
    t = { s with
      res := Bank.zero, errCode := t.errCode, errStage := t.errStage, errInfo := t.errInfo
      iters := t.iters, engine := .idle, done := true }

/-- R226: the model-only fault is the one stop: no command is ever refused, and a command faults only in the
cipher reads, with its bounds check passed and an unwritten word in its source range. -/
def Obligations.OnlyUnwrittenSourceStops : Prop :=
  ∀ (i : Instr) (s : State),
    (∃ t, exec i s = .next t) ∨
    (exec i s = .fault .uninitSymbolRead ∧ (i = .encrypt ∨ i = .decrypt ∨ i = .crack) ∧
      srcOf s.inputs + lenOf s.inputs ≤ s.build.memWords ∧ ¬ SourceWritten s.inputs)

/-- R211's column "raised by", with R31's stages: which codes and stages each command can complete with;
stage 3 is never reported; stage 0 is for success and for every command but CRACK; ERRINFO is 0 but after
E_SYMBOL_OUT_OF_RANGE. -/
def Obligations.CodesAndStagesOfEachCommand : Prop :=
  ∀ (i : Instr) (s t : State), exec i s = .next t →
    t.errCode ∈ codesOf i ∧ (t.errCode = .ok → t.errStage = .none) ∧
    (i ≠ .crack → t.errStage = .none) ∧
    (i = .crack → t.errCode ≠ .ok → t.errStage ∈ [.args, .factorize, .recover, .decrypt]) ∧
    (t.errCode ≠ .symbolOutOfRange → t.errInfo = 0)

/-- R33 and R34: no scan tests more than BUDGET candidates when BUDGET is not 0, so ITERS is at most BUDGET
for a command of one scan and at most twice BUDGET for CRACK; a command with no scan sets ITERS to 0. -/
def Obligations.BudgetCapsCandidates : Prop :=
  ∀ (i : Instr) (s t : State), exec i s = .next t →
    (i ∈ [.gcd, .coprime, .modpow, .modinv, .keygen, .encrypt, .decrypt, .totient] → t.iters = 0) ∧
    (budgetOf s.inputs ≠ 0 → i ∈ [.choosee, .keygenAuto, .factorize, .recoverd] →
      t.iters.toNat ≤ budgetOf s.inputs) ∧
    (budgetOf s.inputs ≠ 0 → i = .crack → t.iters.toNat ≤ 2 * budgetOf s.inputs)

/-- R14: a command is a function of its latch (and the memory it is committed to): two states that agree on
these, whatever else they hold, complete alike. -/
def Obligations.CommandIsFunctionOfLatch : Prop :=
  ∀ (i : Instr) (s s' : State), s.inputs = s'.inputs → s.mem = s'.mem →
    s.build.memWords = s'.build.memWords →
    (∀ t, exec i s = .next t → ∃ t', exec i s' = .next t' ∧ t'.res = t.res ∧ t'.mem = t.mem ∧
      t'.errCode = t.errCode ∧ t'.errStage = t.errStage ∧ t'.errInfo = t.errInfo ∧ t'.iters = t.iters) ∧
    (∀ f, exec i s = .fault f → exec i s' = .fault f)

/-- R71 and R215: repeating a command that writes no symbol after its completion gives the same outcome. -/
def Obligations.RepeatedCommandRepeatsItsOutcome : Prop :=
  ∀ (i : Instr) (s t : State), usesSymbols i = false →
    exec i (startCommand s (encode i)) = .next t →
    exec i (startCommand t (encode i)) = .next t

/-! ### The host bus -/

/-- R210 and R24: a CMD write while IDLE is accepted, legal word or not: CMD and the latch are written, BUSY
set and DONE cleared in one step, and nothing else changes. -/
def Obligations.AcceptedCmdWriteStarts : Prop :=
  ∀ (s : State) (w : Word), s.engine = .idle →
    busAccess s (memWrite s.build 0x0020 w) =
      { s with
        cmd := w, engine := .busy ⟨w, s.ops, s.budget, s.mem⟩, done := false, resp := some .writeOk }

/-- R44: while BUSY a write to CMD, BUDGET, an operand register or a symbol word is dropped with a normal
response and sets WERR; a write to CTRL or STATUS acts; reads are answered with the live values. -/
def Obligations.WritesWhileBusyAreDropped : Prop :=
  ∀ (s : State) (l : Latch), BuildLegal s → s.engine = .busy l →
    (∀ t v, (t = .reg .cmd ∨ t = .reg .budget ∨ (∃ i, t = .reg (.op i)) ∨
        (∃ i, i < s.build.memWords ∧ t = .sym i)) →
      busAccess s (memWrite s.build (targetOffset t) v) =
        { s with werr := true, resp := some .writeOk }) ∧
    (∀ v, busAccess s (memWrite s.build 0x0010 v) = { writeCtrl s v with resp := some .writeOk }) ∧
    (∀ v, busAccess s (memWrite s.build 0x0018 v) = { writeStatus s v with resp := some .writeOk }) ∧
    (∀ r, busAccess s (memRead s.build (regOffset r)) =
      { s with resp := some (.readOk (readRegister s r)) }) ∧
    (∀ i w, i < s.build.memWords → s.mem.loadSym i = some w →
      busAccess s (memRead s.build (symOffset i)) = { s with resp := some (.readOk w) })

/-- R256, first row, with R72: a write to an operand register, BUDGET or a symbol word while IDLE is stored,
the next read of it returns the value written, and reads of everything else are unchanged. -/
def Obligations.IdleWritesReadBack : Prop :=
  ∀ (s : State) (v : Word), BuildLegal s → s.engine = .idle →
    (∀ i, ∃ t, busAccess s (memWrite s.build (regOffset (.op i)) v) = t ∧ t.resp = some .writeOk ∧
      (∀ r, readRegister t r = if r = .op i then v else readRegister s r) ∧ t.mem = s.mem) ∧
    (∃ t, busAccess s (memWrite s.build (regOffset .budget) v) = t ∧ t.resp = some .writeOk ∧
      (∀ r, readRegister t r = if r = .budget then v else readRegister s r) ∧ t.mem = s.mem) ∧
    (∀ i, i < s.build.memWords →
      ∃ t, busAccess s (memWrite s.build (symOffset i) v) = t ∧ t.resp = some .writeOk ∧
        (∀ r, readRegister t r = readRegister s r) ∧
        (busAccess t (memRead t.build (symOffset i))).resp = some (.readOk v) ∧
        (∀ j, j ≠ i → t.mem.loadSym j = s.mem.loadSym j))

/-- R41: a write to ID, CAP, ITERS, ERRINFO or a result register is ignored, with a normal response and
without setting WERR. -/
def Obligations.ReadOnlyWritesIgnored : Prop :=
  ∀ (s : State) (r : Reg) (v : Word),
    (r = .id ∨ r = .cap ∨ r = .iters ∨ r = .errInfo ∨ ∃ i, r = .res i) →
    busAccess s (memWrite s.build (regOffset r) v) = { s with resp := some .writeOk }

/-- R71: a read has no side effect on the block: whatever is read, every register, the symbol memory and the
engine stay as they were, WERR alone being set by a read that gets the error response. -/
def Obligations.ReadsHaveNoSideEffects : Prop :=
  ∀ (s : State) (addr bytes : Nat),
    ∃ werr draws resp, busAccess s ⟨addr, bytes, .read⟩ =
        { s with werr := werr, draws := draws, resp := resp } ∧
      (werr ≠ s.werr → resp = some .readError)

/-- R65: an access that is not 64-bit, not a multiple of 8, or at a reserved offset gets the error response:
a write changes nothing, a read returns 0, and both set WERR. -/
def Obligations.BadAccessGetsErrorResponse : Prop :=
  ∀ (s : State) (off bytes : Nat) (v : Word), off < 65536 →
    (bytes ≠ 8 ∨ off % 8 ≠ 0 ∨ (0x00C0 ≤ off ∧ off < 0x1000) ∨ 0x1000 + 8 * s.build.memWords ≤ off) →
    busAccess s ⟨s.build.base + off, bytes, .write v⟩ =
      { s with werr := true, resp := some .writeError } ∧
    busAccess s ⟨s.build.base + off, bytes, .read⟩ = { s with werr := true, resp := some .readError } ∧
    Response.readError.data = some 0

/-- R61: a host read of an unwritten symbol word is answered by the free value of the state's next draw,
whatever it is, and changes nothing else; a write that is not dropped marks the word written. -/
def Obligations.UnwrittenWordReadsAsDraw : Prop :=
  ∀ (s : State) (i : Nat), BuildLegal s → i < s.build.memWords → s.mem.loadSym i = none →
    busAccess s (memRead s.build (symOffset i)) =
      { s with resp := some (.readOk (Config.draw s.draws)), draws := s.draws + 1 } ∧
    (∀ v, s.engine = .idle →
      ((busAccess s (memWrite s.build (symOffset i) v)).mem.loadSym i).isSome)

/-- R26, the layout: each field of STATUS in its bits, the rest 0. -/
def Obligations.StatusFields : Prop :=
  ∀ s : State,
    (readRegister s .status).getLsbD 0 = s.busy ∧ (readRegister s .status).getLsbD 1 = s.done ∧
    (readRegister s .status).getLsbD 2 = s.werr ∧
    (readRegister s .status).getLsbD 3 = decide (s.errCode ≠ .ok) ∧
    (readRegister s .status).extractLsb' 4 4 = 0 ∧
    ((readRegister s .status).extractLsb' 8 8).toNat = s.errCode.number ∧
    ((readRegister s .status).extractLsb' 16 4).toNat = s.errStage.number ∧
    (readRegister s .status).extractLsb' 20 44 = 0

/-- R26, the write: bit 1 clears DONE, bit 2 clears WERR, nothing else changes, BUSY or not. -/
def Obligations.StatusWriteClears : Prop :=
  ∀ (s : State) (v : Word),
    busAccess s (memWrite s.build 0x0018 v) =
      { s with
        done := if v.getLsbD 1 then false else s.done
        werr := if v.getLsbD 2 then false else s.werr
        resp := some .writeOk }

/-- R25: a CTRL write with SRST 0 sets IE to bit 0 and nothing else, BUSY or not; CTRL reads IE in bit 0 and
0 elsewhere. -/
def Obligations.CtrlWriteSetsEnable : Prop :=
  ∀ (s : State) (v : Word), v.getLsbD 1 = false →
    busAccess s (memWrite s.build 0x0010 v) = { s with ie := v.getLsbD 0, resp := some .writeOk } ∧
    (readRegister s .ctrl).getLsbD 0 = s.ie ∧ (readRegister s .ctrl).extractLsb' 1 63 = 0

/-- R241: a CTRL write with SRST 1, BUSY or not, abandons any command, takes every register to its reset
value, IE included, and leaves the symbol memory and its marks; no other access ends a command in flight. -/
def Obligations.SoftResetEffects : Prop :=
  (∀ (s : State) (v : Word), v.getLsbD 1 = true →
    busAccess s (memWrite s.build 0x0010 v) =
      { s with
        ops := Bank.zero, res := Bank.zero, cmd := 0, ie := false, done := false, werr := false
        errCode := .ok, errStage := .none, budget := 0, iters := 0, errInfo := 0, engine := .idle
        resp := some .writeOk }) ∧
  (∀ (s : State) (l : Latch) (a : Access), s.engine = .busy l → (busAccess s a).engine ≠ .busy l →
    ∃ v : Word, v.getLsbD 1 = true ∧ a = memWrite s.build 0x0010 v)

/-- R39 and R218: the interrupt is DONE AND IE; it rises with every completion while IE is 1, success or
error, and falls when DONE is cleared by a STATUS write, an accepted CMD write or a reset, or IE is
written 0. -/
def Obligations.InterruptFollowsDone : Prop :=
  (∀ (i : Instr) (s t : State), exec i s = .next t → t.irq = s.ie) ∧
  (∀ (s : State) (v : Word), v.getLsbD 1 = true → (busAccess s (memWrite s.build 0x0018 v)).irq = false) ∧
  (∀ (s : State) (w : Word), s.engine = .idle → (busAccess s (memWrite s.build 0x0020 w)).irq = false) ∧
  (∀ (s : State) (v : Word), v.getLsbD 0 = false → (busAccess s (memWrite s.build 0x0010 v)).irq = false) ∧
  (∀ (s : State) (v : Word), v.getLsbD 1 = true → (busAccess s (memWrite s.build 0x0010 v)).irq = false) ∧
  (∀ s : State, (powerOnReset s).irq = false) ∧
  (∀ s : State, s.irq = (s.done && s.ie))

/-- R252 with R72: while a command is in flight no host turn changes what the previous completion left, nor
the operands and the latch, unless it performs a soft reset. -/
def Obligations.HostTurnWhileBusyKeepsOutcome : Prop :=
  ∀ (s : State) (l : Latch), s.engine = .busy l →
    (hostTurn s).engine = .idle ∨
    ((hostTurn s).engine = .busy l ∧ (hostTurn s).res = s.res ∧ (hostTurn s).errCode = s.errCode ∧
      (hostTurn s).errStage = s.errStage ∧ (hostTurn s).errInfo = s.errInfo ∧
      (hostTurn s).iters = s.iters ∧ (hostTurn s).mem = s.mem ∧ (hostTurn s).cmd = s.cmd ∧
      (hostTurn s).ops = s.ops ∧ (hostTurn s).budget = s.budget)

/-- R96: one turn of WAIT reads STATUS, and the line stays while the value read has BUSY = 1. -/
def Obligations.WaitRepeatsWhileBusy : Prop :=
  ∀ (s : State) (rest : List HostOp), s.program = .wait :: rest →
    hostTurn s =
      { s with
        resp := some (.readOk (readRegister s .status))
        program := if s.busy then .wait :: rest else rest }

/-- R95's four forms and a raw access as bus accesses, R96's expansions, and the example encodings of R97. -/
def Obligations.HostLineEncodings : Prop :=
  (∀ (b : Build) (r : Reg) (i : Nat) (v : Int) (a : Access),
    hostOpAccess b (.wr r v) = ⟨b.base + regOffset r, 8, .write (BitVec.ofInt 64 v)⟩ ∧
    hostOpAccess b (.rd r) = ⟨b.base + regOffset r, 8, .read⟩ ∧
    hostOpAccess b (.wrm i v) = ⟨b.base + (0x1000 + 8 * i), 8, .write (BitVec.ofInt 64 v)⟩ ∧
    hostOpAccess b (.rdm i) = ⟨b.base + (0x1000 + 8 * i), 8, .read⟩ ∧
    hostOpAccess b (.raw a) = a) ∧
  (∀ i : Instr, asmCmd i = [.wr .cmd (opcode i).toNat] ∧ asmRun i = asmCmd i ++ asmWait) ∧
  asmWait = [.wait] ∧ asmAck = [.wr .status 0x6] ∧ asmSrst = [.wr .ctrl 0x2] ∧
  (∀ (v : Fin 8 → Int) (k : Nat), k ≤ 8 →
    asmSetops ((List.ofFn v).take k) = (List.ofFn (fun i => HostOp.wr (.op i) (v i))).take k) ∧
  (∀ b : Build,
    (asmCmd .modpow).map (hostOpAccess b) = [⟨b.base + 0x0020, 8, .write 0x0000000000000003⟩] ∧
    (asmCmd .crack).map (hostOpAccess b) = [⟨b.base + 0x0020, 8, .write 0x0000000000000033⟩] ∧
    hostOpAccess b (.wr (.op 2) (-1)) = ⟨b.base + 0x0050, 8, .write 0xFFFFFFFFFFFFFFFF⟩ ∧
    hostOpAccess b (.wrm 5 72) = ⟨b.base + 0x1028, 8, .write 0x0000000000000048⟩)

/-! ### Whole-machine rules -/

/-- The invariant is kept by every step, from every state that meets it. -/
def Obligations.StepKeepsInvariant : Prop :=
  ∀ s t : State, s.Inv → step s = .next t → t.Inv

/-- R38: "`L` always equals the live values": every step keeps it. -/
def Obligations.StepKeepsLatchLive : Prop :=
  ∀ s t : State, LatchLive s → step s = .next t → LatchLive t

/-- Every step keeps the symbol memory canonical and made of whole words, and the build parameters as they
are. -/
def Obligations.StepKeepsMemoryWhole : Prop :=
  ∀ s t : State, MemoryWhole s → step s = .next t → MemoryWhole t ∧ t.build = s.build

/-- R26 and R31: only a completion or a reset changes the outcome registers: a step that changes a result
register, ERRCODE, ERRSTAGE, ERRINFO or ITERS ends with the engine IDLE, and either it began BUSY and
ended with DONE set, or every register has its reset value. -/
def Obligations.OnlyCompletionOrResetChangesOutcome : Prop :=
  ∀ s t : State, step s = .next t →
    (t.res ≠ s.res ∨ t.errCode ≠ s.errCode ∨ t.errStage ≠ s.errStage ∨ t.errInfo ≠ s.errInfo ∨
      t.iters ≠ s.iters) →
    t.engine = .idle ∧
    ((s.busy = true ∧ t.done = true) ∨
     (t.ops = Bank.zero ∧ t.res = Bank.zero ∧ t.cmd = 0 ∧ t.budget = 0 ∧ statusWord t = 0 ∧ ctrlWord t = 0))

/-- R212 and R250: every accepted command ends: from any BUSY state, within one step more than the schedule
has turns left, the engine is IDLE (the command completed, or a reset came first), or the model has
faulted on an unwritten source word. -/
def Obligations.EveryCommandEnds : Prop :=
  ∀ s : State, s.busy = true →
    ∃ k, k ≤ s.schedule.length + 1 ∧
      ((∃ t : State, Host.Core.run Sys2Proof.core k s = .next t ∧ t.busy = false) ∨
        Host.Core.run Sys2Proof.core k s = .fault Fault.uninitSymbolRead)

/-- R226 and R256: no step is refused, and a step faults only when it runs ENCRYPT, DECRYPT or CRACK on an
unwritten source word: a state whose latch has its source written, or that is IDLE, steps safely. -/
def Obligations.StepsAreSafeOnWrittenSource : Prop :=
  ∀ s : State, (∀ l, s.engine = .busy l → SourceWritten l) → SafeStep s

/-! ### The host's turn and its reads -/

/-- R250: a step is the turn of the agent whose turn it is (the schedule is the model's own, log 1). The
host's turn makes the one bus access of its next line and moves on (WAIT, which may stay, is
WaitRepeatsWhileBusy), or does nothing when no line is left; the engine's does nothing while IDLE and
completes the latched word while BUSY; the platform's is the power-on reset. -/
def Obligations.StepIsTheTurnOfItsAgent : Prop :=
  (∀ (s : State) (rest : List Agent), s.schedule = .host :: rest →
    step s = .next (hostTurn { s with schedule := rest })) ∧
  (∀ s : State, s.schedule = [] → s.engine = .idle → step s = .next (hostTurn s)) ∧
  (∀ (s : State) (op : HostOp) (rest : List HostOp), s.program = op :: rest → op ≠ .wait →
    hostTurn s = { busAccess s (hostOpAccess s.build op) with program := rest }) ∧
  (∀ s : State, s.program = [] → hostTurn s = s) ∧
  (∀ (s : State) (rest : List Agent), s.schedule = .engine :: rest →
    step s = engineTurn { s with schedule := rest }) ∧
  (∀ (s : State) (l : Latch), s.schedule = [] → s.engine = .busy l → step s = engineTurn s) ∧
  (∀ s : State, s.engine = .idle → engineTurn s = .next s) ∧
  (∀ (s : State) (l : Latch) (i : Instr), s.engine = .busy l → decode l.cmd = .command i →
    engineTurn s = exec i s) ∧
  (∀ (s : State) (rest : List Agent), s.schedule = .platform :: rest →
    step s = .next (powerOnReset { s with schedule := rest }))

/-- R256, "read any register or symbol", at any time: a host read of a register, and of a written symbol
word, is answered with its value and changes nothing; and what each register reads as. (An unwritten symbol
word is UnwrittenWordReadsAsDraw; the fields of STATUS, CTRL, ID and CAP are stated with those registers.) -/
def Obligations.HostReadsReturnTheValue : Prop :=
  (∀ (s : State) (r : Reg),
    busAccess s (memRead s.build (regOffset r)) = { s with resp := some (.readOk (readRegister s r)) }) ∧
  (∀ (s : State) (i : Nat) (w : Word), BuildLegal s → i < s.build.memWords → s.mem.loadSym i = some w →
    busAccess s (memRead s.build (symOffset i)) = { s with resp := some (.readOk w) }) ∧
  (∀ s : State,
    readRegister s .cmd = s.cmd ∧ readRegister s .budget = s.budget ∧ readRegister s .iters = s.iters ∧
    readRegister s .errInfo = s.errInfo ∧
    List.ofFn (fun i : Fin 8 => readRegister s (.op i)) =
      [s.ops.r0, s.ops.r1, s.ops.r2, s.ops.r3, s.ops.r4, s.ops.r5, s.ops.r6, s.ops.r7] ∧
    List.ofFn (fun i : Fin 8 => readRegister s (.res i)) =
      [s.res.r0, s.res.r1, s.res.r2, s.res.r3, s.res.r4, s.res.r5, s.res.r6, s.res.r7])

/-- R63: the block answers only its own 64 KiB window: an access outside `[BASE, BASE + 64 KiB)` changes
nothing in it. (That it gets no response is the model's choice, log 4.) -/
def Obligations.AccessOutsideWindowIsNotTheBlocks : Prop :=
  ∀ (s : State) (a : Access), (a.addr < s.build.base ∨ s.build.base + 65536 ≤ a.addr) →
    busAccess s a = { s with resp := none }
end

