-- ==== Sys2Proof/Laws/Arithmetic.lean ====
section
/-! SUPPORT. What each arithmetic helper and the candidate scan compute, said once. -/

namespace Sys2Proof.Machine

theorem emod_eq (a m : Int) : emod a m = a % m := rfl

theorem fdiv_eq (a m : Int) : fdiv a m = a / m := by
  unfold fdiv
  rcases eq_or_ne m 0 with rfl | hm
  · simp
  · have h : a - emod a m = m * (a / m) := by
      rw [emod_eq]; linarith [Int.mul_ediv_add_emod a m]
    rw [h, Int.mul_ediv_cancel_left _ hm]

/-- The remainder step of the Euclidean loops. -/
theorem sub_fdiv_mul (a m : Int) : a - fdiv a m * m = a % m := by
  rw [fdiv_eq, Int.emod_def, mul_comm]

/-- Equal integers are congruent. -/
theorem modEq_of_eq {m a b : Int} (h : a = b) : a ≡ b [ZMOD m] := h ▸ Int.ModEq.refl a

/-! ### The Euclidean algorithm -/

theorem euclidLoop_eq_gcd : ∀ (fuel x y : Nat), y ≤ fuel → euclidLoop fuel x y = Nat.gcd x y
  | 0, x, y, h => by simp [euclidLoop, Nat.le_zero.mp h]
  | fuel + 1, x, y, h => by
    unfold euclidLoop
    split
    · next hy => simp [hy]
    · next hy =>
      have hlt : x % y < y := Nat.mod_lt _ (Nat.pos_of_ne_zero hy)
      rw [euclidLoop_eq_gcd fuel y (x % y) (by omega), Nat.gcd_comm x y, Nat.gcd_rec y x, Nat.gcd_comm]

/-- `euclid` computes the gcd of the magnitudes (R111, R12). -/
theorem euclid_eq_gcd (a b : Int) : euclid a b = Int.gcd a b :=
  euclidLoop_eq_gcd _ _ _ le_rfl

/-! ### Square-and-multiply -/

theorem modpowLoop_modEq (m : Int) :
    ∀ (fuel : Nat) (r b : Int) (x : Nat), x ≤ fuel → modpowLoop m fuel r b x ≡ r * b ^ x [ZMOD m]
  | 0, r, b, x, h => by simp [modpowLoop, Nat.le_zero.mp h]
  | fuel + 1, r, b, x, h => by
    unfold modpowLoop
    split
    · next hx => simp [hx]
    · next hx =>
      refine (modpowLoop_modEq m fuel _ _ (x / 2) (by omega)).trans ?_
      have hb : emod (b * b) m ^ (x / 2) ≡ (b * b) ^ (x / 2) [ZMOD m] :=
        (Int.mod_modEq (b * b) m).pow _
      have hpow : b ^ x = (b * b) ^ (x / 2) * b ^ (x % 2) := by
        rw [← pow_two, ← pow_mul, ← pow_add, Nat.div_add_mod]
      split
      · next hodd =>
        have hr : emod (r * b) m ≡ r * b [ZMOD m] := Int.mod_modEq (r * b) m
        refine (hr.mul hb).trans (modEq_of_eq ?_)
        rw [hpow, hodd]; ring
      · next heven =>
        have h0 : x % 2 = 0 := by omega
        refine (hb.mul_left r).trans (modEq_of_eq ?_)
        rw [hpow, h0]; ring

theorem modpowLoop_range {m : Int} (hm : 0 < m) :
    ∀ (fuel : Nat) (r b : Int) (x : Nat), 0 ≤ r ∧ r < m →
      0 ≤ modpowLoop m fuel r b x ∧ modpowLoop m fuel r b x < m
  | 0, _, _, _, hr => hr
  | fuel + 1, r, b, x, hr => by
    unfold modpowLoop
    split
    · exact hr
    · refine modpowLoop_range hm fuel _ _ _ ?_
      split
      · exact ⟨Int.emod_nonneg _ hm.ne', Int.emod_lt_of_pos _ hm⟩
      · exact hr

/-- `modpow` lies in `[0, m)` (R114). -/
theorem modpow_range {m : Int} (hm : 0 < m) (b : Int) (k : Nat) : 0 ≤ modpow b k m ∧ modpow b k m < m :=
  modpowLoop_range hm _ _ _ _ ⟨Int.emod_nonneg _ hm.ne', Int.emod_lt_of_pos _ hm⟩

/-- `modpow` is the residue of the power (R114). -/
theorem modpow_eq {m : Int} (hm : 0 < m) (b : Int) (k : Nat) : modpow b k m = b ^ k % m := by
  have hcong : modpow b k m ≡ b ^ k [ZMOD m] := by
    refine (modpowLoop_modEq m k _ _ k le_rfl).trans ?_
    have h1 : emod 1 m ≡ 1 [ZMOD m] := Int.mod_modEq 1 m
    have h2 : emod b m ^ k ≡ b ^ k [ZMOD m] := (Int.mod_modEq b m).pow k
    simpa using h1.mul h2
  obtain ⟨h0, hlt⟩ := modpow_range hm b k
  rw [← hcong.eq, Int.emod_eq_of_lt h0 hlt]

/-! ### The extended Euclidean inverse -/

/-- The loop ends at the gcd and keeps `r ≡ t·a (mod phi)` (R116). -/
theorem extInverseLoop_spec (phi a : Int) :
    ∀ (fuel : Nat) (r0 r1 t0 t1 : Int), 0 ≤ r0 → 0 ≤ r1 → r1.toNat ≤ fuel →
      r0 ≡ t0 * a [ZMOD phi] → r1 ≡ t1 * a [ZMOD phi] →
      (extInverseLoop fuel r0 r1 t0 t1).1 = Int.gcd r0 r1 ∧
      (extInverseLoop fuel r0 r1 t0 t1).1 ≡ (extInverseLoop fuel r0 r1 t0 t1).2 * a [ZMOD phi]
  | 0, r0, r1, t0, t1, h0, h1, hf, c0, _ => by
    have : r1 = 0 := by omega
    subst this
    refine ⟨?_, c0⟩
    show r0 = _
    rw [Int.gcd_zero_right]; omega
  | fuel + 1, r0, r1, t0, t1, h0, h1, hf, c0, c1 => by
    unfold extInverseLoop
    split
    · next hz =>
      subst hz
      refine ⟨?_, c0⟩
      show r0 = _
      rw [Int.gcd_zero_right]; omega
    · next hz =>
      have hpos : 0 < r1 := by omega
      have hlt : r0 % r1 < r1 := Int.emod_lt_of_pos _ hpos
      have hnn : 0 ≤ r0 % r1 := Int.emod_nonneg _ hz
      have hc : r0 - fdiv r0 r1 * r1 ≡ (t0 - fdiv r0 r1 * t1) * a [ZMOD phi] := by
        refine (c0.sub (c1.mul_left (fdiv r0 r1))).trans (modEq_of_eq ?_)
        ring
      have ih := extInverseLoop_spec phi a fuel r1 (r0 - fdiv r0 r1 * r1) t1 (t0 - fdiv r0 r1 * t1)
        h1 (by rw [sub_fdiv_mul]; exact hnn) (by rw [sub_fdiv_mul]; omega) c1 hc
      refine ⟨ih.1.trans ?_, ih.2⟩
      rw [sub_fdiv_mul, Int.gcd_comm, Int.gcd_emod, Int.gcd_comm]

/-- What `ext_inverse` answers is an inverse in `[0, phi)` (R116). -/
theorem extInverse_some {e phi d : Int} (hphi : 0 < phi) (h : extInverse e phi = some d) :
    0 ≤ d ∧ d < phi ∧ (e * d) % phi = 1 := by
  unfold extInverse at h
  simp only at h
  split at h
  · cases h
  · split at h
    · cases h
    · next hpost =>
      cases h
      exact ⟨Int.emod_nonneg _ hphi.ne', Int.emod_lt_of_pos _ hphi, not_not.mp hpost⟩

/-- `ext_inverse` answers whenever `gcd(e, phi) = 1` (R116, R117). -/
theorem extInverse_of_coprime {e phi : Int} (hphi : 2 ≤ phi) (hg : Int.gcd e phi = 1) :
    ∃ d, extInverse e phi = some d := by
  have ha0 : 0 ≤ emod e phi := Int.emod_nonneg _ (by omega)
  obtain ⟨hgcd, hcong⟩ := extInverseLoop_spec phi (emod e phi) (emod e phi).toNat phi (emod e phi) 0 1
    (by omega) ha0 le_rfl (by simp [Int.ModEq]) (by simp [Int.ModEq])
  have hr : (extInverseLoop (emod e phi).toNat phi (emod e phi) 0 1).1 = 1 := by
    rw [hgcd, emod_eq, Int.gcd_comm, Int.gcd_emod, hg]; rfl
  unfold extInverse
  simp only [hr]
  rw [if_neg (by simp)]
  have hpost : emod (e * emod (extInverseLoop (emod e phi).toNat phi (emod e phi) 0 1).2 phi) phi = 1 := by
    rw [hr] at hcong
    have h1 : e * emod (extInverseLoop (emod e phi).toNat phi (emod e phi) 0 1).2 phi ≡ 1 [ZMOD phi] := by
      refine Int.ModEq.trans ?_ hcong.symm
      rw [mul_comm]
      exact (Int.mod_modEq _ _).mul (Int.mod_modEq e phi).symm
    rw [emod_eq, h1.eq, Int.emod_eq_of_lt (by omega) (by omega)]
  rw [if_neg (by simpa using hpost)]
  exact ⟨_, rfl⟩

/-- An inverse forces `gcd(e, phi) = 1`. -/
theorem gcd_eq_one_of_inverse {e phi d : Int} (h : (e * d) % phi = 1) : Int.gcd e phi = 1 := by
  have hd : (Int.gcd e phi : Int) ∣ 1 := by
    rw [← h, Int.emod_def]
    exact dvd_sub ((Int.gcd_dvd_left ..).mul_right _) ((Int.gcd_dvd_right ..).mul_right _)
  exact_mod_cast Int.eq_one_of_dvd_one (by positivity) hd

/-- `ext_inverse` answers NONE exactly when `gcd(e, phi) ≠ 1` (R116). -/
theorem extInverse_eq_none {e phi : Int} (hphi : 2 ≤ phi) : extInverse e phi = none ↔ Int.gcd e phi ≠ 1 := by
  constructor
  · intro h hg
    obtain ⟨d, hd⟩ := extInverse_of_coprime hphi hg
    simp [h] at hd
  · intro hg
    cases hd : extInverse e phi with
    | none => rfl
    | some d => exact absurd (gcd_eq_one_of_inverse (extInverse_some (by omega) hd).2.2) hg

/-- Two inverses in `[0, phi)` are equal. -/
theorem inverse_unique {e phi d d' : Int} (h : (e * d) % phi = 1) (h' : (e * d') % phi = 1)
    (hd : 0 ≤ d ∧ d < phi) (hd' : 0 ≤ d' ∧ d' < phi) : d = d' := by
  have hcong : d ≡ d' [ZMOD phi] := by
    have hp : 1 % phi = 1 := by rw [← h, Int.emod_emod_of_dvd _ dvd_rfl]
    have h1 : e * d ≡ 1 [ZMOD phi] := by rw [Int.ModEq, h, hp]
    have h2 : e * d' ≡ 1 [ZMOD phi] := by rw [Int.ModEq, h', hp]
    have h3 : d * (e * d') ≡ d' * (e * d) [ZMOD phi] := modEq_of_eq (by ring)
    have h4 : d * (e * d') ≡ d [ZMOD phi] := by simpa using h2.mul_left d
    have h5 : d' * (e * d) ≡ d' [ZMOD phi] := by simpa using h1.mul_left d'
    exact h4.symm.trans (h3.trans h5)
  rw [← Int.emod_eq_of_lt hd.1 hd.2, ← Int.emod_eq_of_lt hd'.1 hd'.2, hcong.eq]

/-! ### The candidate scan -/

theorem overBudget_iff (budget i : Nat) : overBudget budget i = true ↔ budget ≠ 0 ∧ budget < i := by
  simp [overBudget]

/-- Everything a scan can do (R33, R34): the candidate found is the first to pass and within budget; an
exhausted scan has tested every candidate, none passing; a scan over budget has tested `BUDGET` of them,
none passing, with one more to come. -/
theorem scan_spec (test : Int → Bool) (budget : Nat) : ∀ (left tested : Nat) (v : Int),
    (budget = 0 ∨ tested ≤ budget) →
    match scan test budget left tested v with
    | .found w k => ∃ j : Nat, j < left ∧ w = v + j ∧ k = tested + j + 1 ∧ test w = true ∧
        (∀ i : Nat, i < j → test (v + i) = false) ∧ (budget = 0 ∨ k ≤ budget)
    | .exhausted k => k = tested + left ∧ (∀ i : Nat, i < left → test (v + i) = false) ∧
        (budget = 0 ∨ k ≤ budget)
    | .overBudget k => k = budget ∧ budget ≠ 0 ∧ budget < tested + left ∧
        (∀ i : Nat, tested + i < budget → test (v + i) = false)
  | 0, tested, v, hb => ⟨rfl, by simp, hb⟩
  | left + 1, tested, v, hb => by
    unfold scan
    by_cases hob : overBudget budget (tested + 1) = true
    · rw [if_pos hob]
      rw [overBudget_iff] at hob
      refine ⟨by omega, hob.1, by omega, fun i hi => ?_⟩
      omega
    · rw [if_neg hob]
      rw [overBudget_iff] at hob
      by_cases ht : test v = true
      · rw [if_pos ht]
        exact ⟨0, by omega, by simp, rfl, ht, by simp, by omega⟩
      · rw [if_neg ht]
        have ih := scan_spec test budget left (tested + 1) (v + 1) (by omega)
        have hfalse : test v = false := by simpa using ht
        have shift : ∀ i : Nat, v + 1 + (i : Int) = v + ((i + 1 : Nat) : Int) := fun i => by push_cast; ring
        generalize scan test budget left (tested + 1) (v + 1) = r at ih
        match r, ih with
        | .found w k, ⟨j, hj, hw, hk, htw, hlt, hbk⟩ =>
          refine ⟨j + 1, by omega, by rw [hw, shift], by omega, htw, ?_, hbk⟩
          intro i hi
          cases i with
          | zero => simpa using hfalse
          | succ i => rw [← shift]; exact hlt i (by omega)
        | .exhausted k, ⟨hk, hall, hbk⟩ =>
          refine ⟨by omega, ?_, hbk⟩
          intro i hi
          cases i with
          | zero => simpa using hfalse
          | succ i => rw [← shift]; exact hall i (by omega)
        | .overBudget k, ⟨hk, hb0, hlt, hall⟩ =>
          refine ⟨hk, hb0, by omega, ?_⟩
          intro i hi
          cases i with
          | zero => simpa using hfalse
          | succ i => rw [← shift]; exact hall i (by omega)

/-- A scan whose candidate number `j + 1` is the first to pass, within budget, finds it. -/
theorem scan_found {test : Int → Bool} {budget : Nat} : ∀ {left tested : Nat} {v : Int} (j : Nat),
    j < left → test (v + j) = true → (∀ i : Nat, i < j → test (v + i) = false) →
    (budget = 0 ∨ tested + j + 1 ≤ budget) →
    scan test budget left tested v = .found (v + j) (tested + j + 1) := by
  intro left tested v j hj ht hf hb
  have h := scan_spec test budget left tested v (by omega)
  generalize scan test budget left tested v = r at h
  match r, h with
  | .found w k, ⟨j', hj', hw, hk, htw, hlt, _⟩ =>
    have : j' = j := by
      rcases Nat.lt_trichotomy j' j with h | h | h
      · have := hf j' h; rw [← hw, htw] at this; cases this
      · exact h
      · have := hlt j h; rw [ht] at this; cases this
    subst this
    rw [hw, hk]
  | .exhausted k, ⟨_, hall, _⟩ => have := hall j hj; rw [ht] at this; cases this
  | .overBudget k, ⟨_, hb0, _, hall⟩ => have := hall j (by omega); rw [ht] at this; cases this

/-- A scan in which no candidate passes, within budget, is exhausted. -/
theorem scan_exhausted {test : Int → Bool} {budget left tested : Nat} {v : Int}
    (hf : ∀ i : Nat, i < left → test (v + i) = false) (hb : budget = 0 ∨ tested + left ≤ budget) :
    scan test budget left tested v = .exhausted (tested + left) := by
  have h := scan_spec test budget left tested v (by omega)
  generalize scan test budget left tested v = r at h
  match r, h with
  | .found w k, ⟨j', hj', hw, _, htw, _, _⟩ => have := hf j' hj'; rw [← hw, htw] at this; cases this
  | .exhausted k, ⟨hk, _, _⟩ => rw [hk]
  | .overBudget k, ⟨_, hb0, hlt, _⟩ => omega

/-- A scan whose first `BUDGET` candidates fail while more are left is over budget. -/
theorem scan_overBudget {test : Int → Bool} {budget left tested : Nat} {v : Int} (hb0 : budget ≠ 0)
    (ht : tested ≤ budget) (hlt : budget < tested + left)
    (hf : ∀ i : Nat, tested + i < budget → test (v + i) = false) :
    scan test budget left tested v = .overBudget budget := by
  have h := scan_spec test budget left tested v (by omega)
  generalize scan test budget left tested v = r at h
  match r, h with
  | .found w k, ⟨j', hj', hw, hk, htw, _, hb⟩ =>
    have := hf j' (by omega); rw [← hw, htw] at this; cases this
  | .exhausted k, ⟨hk, _, hb⟩ => omega
  | .overBudget k, ⟨hk, _, _, _⟩ => rw [hk]

end Sys2Proof.Machine
end

