-- ==== Sys2Proof/Laws/Memory.lean ====
section
/-! SUPPORT. The laws of the symbol memory: read after write, the frame of a write, the canonical form, and
whole words. -/

namespace Sys2Proof

/-! ### Little-endian bytes -/

@[simp] theorem leBytes_length : ∀ n v : Nat, (leBytes n v).length = n
  | 0, _ => rfl
  | n + 1, v => by simp [leBytes, leBytes_length n]

/-- The bytes of a value give it back, within their width. -/
theorem ofLeBytes_leBytes : ∀ n v : Nat, ofLeBytes (leBytes n v) = v % 256 ^ n
  | 0, v => by simp [leBytes, ofLeBytes, Nat.mod_one]
  | n + 1, v => by
    have hb : (BitVec.ofNat 8 v).toNat = v % 256 := by simp
    rw [leBytes, ofLeBytes, ofLeBytes_leBytes n, hb, pow_succ', Nat.mod_mul]

/-- The eight bytes of a word give the word back. -/
theorem ofLeBytes_word (w : Word) : BitVec.ofNat 64 (ofLeBytes (leBytes 8 w.toNat)) = w := by
  have h : w.toNat < 256 ^ 8 := w.isLt
  rw [ofLeBytes_leBytes, Nat.mod_eq_of_lt h, BitVec.ofNat_toNat, BitVec.setWidth_eq]

namespace Machine

/-! ### One byte -/

@[simp] theorem loadByte_nil (a : Nat) : Memory.loadByte [] a = none := rfl

theorem loadByte_cons (x : Nat) (b : Byte) (m : Memory) (a : Nat) :
    Memory.loadByte ((x, b) :: m) a = if x = a then some b else Memory.loadByte m a := rfl

/-- Read after write, at the written offset and elsewhere. -/
theorem loadByte_storeByte (a x : Nat) (b : Byte) :
    ∀ m : Memory, (m.storeByte a b).loadByte x = if a = x then some b else m.loadByte x
  | [] => by simp [Memory.storeByte, loadByte_cons]
  | (y, c) :: m => by
    unfold Memory.storeByte
    split
    · simp [loadByte_cons]
    · split
      · next _ hay =>
        subst hay
        simp only [loadByte_cons]
        split <;> simp_all
      · next _ hay =>
        simp only [loadByte_cons, loadByte_storeByte a x b m]
        by_cases hax : a = x
        · subst hax; simp [Ne.symm hay]
        · simp [hax]

/-- Offsets listed after a byte write. -/
theorem mem_storeByte {a : Nat} {b : Byte} {p : Nat × Byte} :
    ∀ {m : Memory}, p ∈ m.storeByte a b → p.1 = a ∨ p ∈ m
  | [], h => by simp_all [Memory.storeByte]
  | (y, c) :: m, h => by
    unfold Memory.storeByte at h
    split at h
    · simp only [List.mem_cons] at h ⊢
      rcases h with rfl | h | h <;> simp_all
    · split at h
      · simp only [List.mem_cons] at h ⊢
        rcases h with rfl | h <;> simp_all
      · simp only [List.mem_cons] at h ⊢
        rcases h with h | h
        · simp [h]
        · rcases mem_storeByte h with h | h <;> simp [h]

/-- A byte write keeps the canonical form. -/
theorem storeByte_wf (a : Nat) (b : Byte) : ∀ m : Memory, m.wf → (m.storeByte a b).wf
  | [], _ => by simp [Memory.storeByte, Memory.wf]
  | (y, c) :: m, h => by
    obtain ⟨hy, hm⟩ := List.pairwise_cons.mp h
    unfold Memory.storeByte
    split
    · next hlt =>
      refine List.pairwise_cons.mpr ⟨fun p hp => ?_, h⟩
      rcases List.mem_cons.mp hp with rfl | hp
      · exact hlt
      · exact hlt.trans (hy p hp)
    · split
      · next hay => exact List.pairwise_cons.mpr ⟨fun p hp => hay ▸ hy p hp, hm⟩
      · refine List.pairwise_cons.mpr ⟨fun p hp => ?_, storeByte_wf a b m hm⟩
        rcases mem_storeByte hp with hpa | hp
        · show y < p.1; omega
        · exact hy p hp

/-! ### Several bytes -/

/-- What a byte list write leaves at each offset. -/
theorem loadByte_storeBytes (x : Nat) : ∀ (bs : List Byte) (m : Memory) (a : Nat),
    (m.storeBytes a bs).loadByte x = if a ≤ x ∧ x < a + bs.length then bs[x - a]? else m.loadByte x
  | [], m, a => by
    have : ¬ (a ≤ x ∧ x < a + ([] : List Byte).length) := by simp
    rw [if_neg this]; rfl
  | b :: bs, m, a => by
    rw [Memory.storeBytes, loadByte_storeBytes x bs, loadByte_storeByte]
    by_cases hax : a = x
    · subst hax; simp
    · by_cases hin : a + 1 ≤ x ∧ x < a + 1 + bs.length
      · rw [if_pos hin, if_pos (by simp only [List.length_cons]; omega)]
        rw [show x - a = (x - (a + 1)) + 1 by omega, List.getElem?_cons_succ]
      · rw [if_neg hin, if_neg hax, if_neg (by simp only [List.length_cons]; omega)]

theorem storeBytes_wf : ∀ (bs : List Byte) (m : Memory) (a : Nat), m.wf → (m.storeBytes a bs).wf
  | [], _, _, h => h
  | b :: bs, m, a, h => storeBytes_wf bs _ _ (storeByte_wf a b m h)

/-- The bytes from `a` up are `bs` exactly when each of them reads so. -/
theorem loadBytes_eq_some {m : Memory} : ∀ {bs : List Byte} {a : Nat},
    (∀ k, k < bs.length → m.loadByte (a + k) = bs[k]?) → m.loadBytes a bs.length = some bs
  | [], _, _ => rfl
  | b :: bs, a, h => by
    have h0 : m.loadByte a = some b := by simpa using h 0 (by simp)
    have ht : m.loadBytes (a + 1) bs.length = some bs := loadBytes_eq_some fun k hk => by
      have := h (k + 1) (by simpa using hk)
      rwa [List.getElem?_cons_succ, show a + (k + 1) = a + 1 + k by omega] at this
    simp [Memory.loadBytes, h0, ht]

/-- A run of bytes reads the same in two memories that agree on it. -/
theorem loadBytes_congr {m m' : Memory} : ∀ {n a : Nat},
    (∀ k, k < n → m.loadByte (a + k) = m'.loadByte (a + k)) → m.loadBytes a n = m'.loadBytes a n
  | 0, _, _ => rfl
  | n + 1, a, h => by
    have h0 : m.loadByte a = m'.loadByte a := by simpa using h 0 (by omega)
    have ht : m.loadBytes (a + 1) n = m'.loadBytes (a + 1) n := loadBytes_congr fun k hk => by
      simpa [Nat.add_assoc, Nat.add_comm 1 k] using h (k + 1) (by omega)
    simp [Memory.loadBytes, h0, ht]

/-- A run of bytes is readable exactly when each byte is written. -/
theorem loadBytes_isSome {m : Memory} : ∀ {n a : Nat},
    (m.loadBytes a n).isSome ↔ ∀ k, k < n → (m.loadByte (a + k)).isSome
  | 0, _ => by simp [Memory.loadBytes]
  | n + 1, a => by
    have ih := loadBytes_isSome (m := m) (n := n) (a := a + 1)
    constructor
    · intro h k hk
      cases hb : m.loadByte a with
      | none => simp [Memory.loadBytes, hb] at h
      | some b =>
        cases k with
        | zero => simp [hb]
        | succ k =>
          have h' : (m.loadBytes (a + 1) n).isSome := by simpa [Memory.loadBytes, hb] using h
          simpa [Nat.add_assoc, Nat.add_comm 1 k] using ih.mp h' k (by omega)
    · intro h
      obtain ⟨b, hb⟩ := Option.isSome_iff_exists.mp (by simpa using h 0 (by omega))
      have h' : (m.loadBytes (a + 1) n).isSome := ih.mpr fun k hk => by
        simpa [Nat.add_assoc, Nat.add_comm 1 k] using h (k + 1) (by omega)
      simpa [Memory.loadBytes, hb] using h'

/-! ### Symbol words -/

/-- What a symbol write leaves at each byte outside its word. -/
theorem loadByte_storeSym_outside {m : Memory} {i : Nat} {w : Word} {x : Nat}
    (h : x < symOffset i ∨ symOffset i + 8 ≤ x) : (m.storeSym i w).loadByte x = m.loadByte x := by
  rw [Memory.storeSym, loadByte_storeBytes, if_neg]
  simp; omega

/-- A symbol write marks its eight bytes written. -/
theorem loadByte_storeSym_inside {m : Memory} {i : Nat} {w : Word} {k : Nat} (hk : k < 8) :
    ((m.storeSym i w).loadByte (symOffset i + k)).isSome := by
  rw [Memory.storeSym, loadByte_storeBytes, if_pos (by simp; omega)]
  simp [hk]

theorem loadSym_storeSym_same (m : Memory) (i : Nat) (w : Word) : (m.storeSym i w).loadSym i = some w := by
  have h : (m.storeSym i w).loadBytes (symOffset i) (leBytes 8 w.toNat).length
      = some (leBytes 8 w.toNat) := loadBytes_eq_some fun k hk => by
    rw [Memory.storeSym, loadByte_storeBytes, if_pos (by omega)]
    congr 1; omega
  rw [leBytes_length] at h
  simp [Memory.loadSym, h, ofLeBytes_word]

/-- Two memories that agree on a word's bytes hold the same word. -/
theorem loadSym_congr {m m' : Memory} {i : Nat}
    (h : ∀ k, k < 8 → m.loadByte (symOffset i + k) = m'.loadByte (symOffset i + k)) :
    m.loadSym i = m'.loadSym i := by
  rw [Memory.loadSym, Memory.loadSym, loadBytes_congr h]

theorem loadSym_storeSym_other {m : Memory} {i j : Nat} {w : Word} (h : i ≠ j) :
    (m.storeSym i w).loadSym j = m.loadSym j :=
  loadSym_congr fun k hk => loadByte_storeSym_outside (by simp only [symOffset]; omega)

/-- Read after write over the symbol words. -/
theorem loadSym_storeSym (m : Memory) (i j : Nat) (w : Word) :
    (m.storeSym i w).loadSym j = if i = j then some w else m.loadSym j := by
  split
  · next h => subst h; exact loadSym_storeSym_same m i w
  · next h => exact loadSym_storeSym_other h

theorem storeSym_wf {m : Memory} (i : Nat) (w : Word) (h : m.wf) : (m.storeSym i w).wf :=
  storeBytes_wf _ _ _ h

/-- A symbol write inside the memory keeps the words whole. -/
theorem storeSym_wholeWords {m : Memory} {n i : Nat} (w : Word) (hi : i < n) (h : m.wholeWords n) :
    (m.storeSym i w).wholeWords n := by
  intro a ha
  by_cases hin : symOffset i ≤ a ∧ a < symOffset i + 8
  · exact ⟨i, hi, hin.1, hin.2, fun k hk => loadByte_storeSym_inside hk⟩
  · have hout : a < symOffset i ∨ symOffset i + 8 ≤ a := by omega
    rw [loadByte_storeSym_outside hout] at ha
    obtain ⟨j, hj, h1, h2, hall⟩ := h a ha
    refine ⟨j, hj, h1, h2, fun k hk => ?_⟩
    have hij : i ≠ j := by rintro rfl; omega
    rw [loadByte_storeSym_outside (by simp only [symOffset] at *; omega)]
    exact hall k hk

/-! ### A command's writes -/

@[simp] theorem commit_nil (m : Memory) : m.commit [] = m := rfl

@[simp] theorem commit_cons (m : Memory) (p : Nat × Int) (ps : List (Nat × Int)) :
    m.commit (p :: ps) = (m.storeSym p.1 (enc64 p.2)).commit ps := rfl

theorem commit_wf : ∀ (ws : List (Nat × Int)) (m : Memory), m.wf → (m.commit ws).wf
  | [], _, h => h
  | p :: ps, _, h => commit_wf ps _ (storeSym_wf p.1 _ h)

theorem commit_wholeWords {n : Nat} : ∀ (ws : List (Nat × Int)) (m : Memory),
    (∀ p ∈ ws, p.1 < n) → m.wholeWords n → (m.commit ws).wholeWords n
  | [], _, _, h => h
  | p :: ps, _, hws, h =>
    commit_wholeWords ps _ (fun q hq => hws q (List.mem_cons_of_mem _ hq))
      (storeSym_wholeWords _ (hws p List.mem_cons_self) h)

/-- The offsets of `writesAt` lie in `[dst, dst + length)`. -/
theorem mem_writesAt {p : Nat × Int} : ∀ {vs : List Int} {dst : Nat},
    p ∈ writesAt dst vs → dst ≤ p.1 ∧ p.1 < dst + vs.length
  | [], _, h => by simp [writesAt] at h
  | v :: vs, dst, h => by
    simp only [writesAt, List.mem_cons] at h
    rcases h with rfl | h
    · simp
    · have := mem_writesAt h
      simp only [List.length_cons]; omega

/-- Bytes outside `[DST, DST + length)` keep their value. -/
theorem loadByte_commit_writesAt_outside {a : Nat} : ∀ (vs : List Int) (dst : Nat) (m : Memory),
    (a < symOffset dst ∨ symOffset (dst + vs.length) ≤ a) →
    (m.commit (writesAt dst vs)).loadByte a = m.loadByte a
  | [], _, _, _ => rfl
  | v :: vs, dst, m, h => by
    simp only [symOffset, List.length_cons] at h
    rw [writesAt, commit_cons, loadByte_commit_writesAt_outside vs _ _ (by simp only [symOffset]; omega)]
    exact loadByte_storeSym_outside (by simp only [symOffset]; omega)

/-- What each symbol word holds after `writesAt`. -/
theorem loadSym_commit_writesAt (i : Nat) : ∀ (vs : List Int) (dst : Nat) (m : Memory),
    (m.commit (writesAt dst vs)).loadSym i =
      if dst ≤ i ∧ i < dst + vs.length then (vs[i - dst]?).map enc64 else m.loadSym i
  | [], dst, m => by
    rw [if_neg (by simp)]; rfl
  | v :: vs, dst, m => by
    rw [writesAt, commit_cons, loadSym_commit_writesAt i vs (dst + 1), loadSym_storeSym]
    by_cases hd : dst = i
    · subst hd; simp
    · by_cases hin : dst + 1 ≤ i ∧ i < dst + 1 + vs.length
      · rw [if_pos hin, if_pos (by simp only [List.length_cons]; omega),
          show i - dst = (i - (dst + 1)) + 1 by omega, List.getElem?_cons_succ]
      · rw [if_neg hin, if_neg hd, if_neg (by simp only [List.length_cons]; omega)]

/-! ### The cipher reads -/

/-- The symbols read, one by one. -/
theorem readSymbols_eq_some {m : Memory} : ∀ {len src : Nat} {ss : List Int},
    readSymbols m src len = some ss ↔
      ss.length = len ∧ ∀ i, i < len → ∃ w, m.loadSym (src + i) = some w ∧ ss[i]? = some (s64 w)
  | 0, src, ss => by
    simp only [readSymbols, Option.some.injEq]
    constructor
    · rintro rfl; simp
    · rintro ⟨h, _⟩; exact (List.length_eq_zero_iff.mp h).symm
  | len + 1, src, ss => by
    unfold readSymbols
    cases hw : m.loadSym src with
    | none =>
      simp only [reduceCtorEq, false_iff, not_and]
      intro _ h
      obtain ⟨w, h, _⟩ := h 0 (by omega)
      simp [hw] at h
    | some w =>
      simp only [Option.map_eq_some_iff]
      constructor
      · rintro ⟨ts, hts, rfl⟩
        obtain ⟨hl, hall⟩ := readSymbols_eq_some.mp hts
        refine ⟨by simp [hl], fun i hi => ?_⟩
        cases i with
        | zero => exact ⟨w, by simpa using hw, by simp⟩
        | succ i =>
          obtain ⟨w', h1, h2⟩ := hall i (by omega)
          exact ⟨w', by rwa [show src + (i + 1) = src + 1 + i by omega], by simpa using h2⟩
      · rintro ⟨hl, hall⟩
        cases ss with
        | nil => simp at hl
        | cons t ts =>
          refine ⟨ts, readSymbols_eq_some.mpr ⟨by simpa using hl, fun i hi => ?_⟩, ?_⟩
          · obtain ⟨w', h1, h2⟩ := hall (i + 1) (by omega)
            exact ⟨w', by rwa [show src + 1 + i = src + (i + 1) by omega], by simpa using h2⟩
          · obtain ⟨w', h1, h2⟩ := hall 0 (by omega)
            simp only [Nat.add_zero, hw, Option.some.injEq] at h1
            simp only [List.getElem?_cons_zero, Option.some.injEq] at h2
            rw [h1, h2]

/-- The reads fail exactly when a word of the range is unwritten. -/
theorem readSymbols_eq_none {m : Memory} : ∀ {len src : Nat},
    readSymbols m src len = none ↔ ∃ i, i < len ∧ m.loadSym (src + i) = none
  | 0, src => by simp [readSymbols]
  | len + 1, src => by
    unfold readSymbols
    cases hw : m.loadSym src with
    | none => simp only [true_iff]; exact ⟨0, by omega, by simpa using hw⟩
    | some w =>
      simp only [Option.map_eq_none_iff, readSymbols_eq_none (len := len)]
      constructor
      · rintro ⟨i, hi, h⟩
        exact ⟨i + 1, by omega, by rwa [show src + (i + 1) = src + 1 + i by omega]⟩
      · rintro ⟨i, hi, h⟩
        cases i with
        | zero => simp [hw] at h
        | succ i => exact ⟨i, by omega, by rwa [show src + 1 + i = src + (i + 1) by omega]⟩

/-- No symbol is out of range exactly when all lie in `[0, n)` (R162). -/
theorem firstOutOfRange_eq_none {n : Int} : ∀ {ss : List Int} {i : Nat},
    firstOutOfRange n i ss = none ↔ ∀ x ∈ ss, 0 ≤ x ∧ x < n
  | [], i => by simp [firstOutOfRange]
  | s :: ss, i => by
    unfold firstOutOfRange
    split
    · next h =>
      simp only [reduceCtorEq, List.mem_cons, forall_eq_or_imp, false_iff, not_and]
      omega
    · next h =>
      rw [firstOutOfRange_eq_none]
      simp only [List.mem_cons, forall_eq_or_imp]
      constructor
      · exact fun h' => ⟨by omega, h'⟩
      · exact fun h' => h'.2

/-- The index reported is the lowest offending one (R162). -/
theorem firstOutOfRange_eq_some {n : Int} : ∀ {ss : List Int} {i j : Nat},
    firstOutOfRange n i ss = some j ↔
      ∃ k, j = i + k ∧ (∃ x, ss[k]? = some x ∧ (x < 0 ∨ n ≤ x)) ∧
        ∀ k', k' < k → ∃ x, ss[k']? = some x ∧ 0 ≤ x ∧ x < n
  | [], i, j => by simp [firstOutOfRange]
  | s :: ss, i, j => by
    unfold firstOutOfRange
    split
    · next h =>
      constructor
      · intro hj
        cases hj
        exact ⟨0, rfl, ⟨s, rfl, h⟩, by simp⟩
      · rintro ⟨k, rfl, ⟨x, hx, hbad⟩, hall⟩
        cases k with
        | zero => rfl
        | succ k =>
          obtain ⟨y, hy, h1, h2⟩ := hall 0 (by omega)
          simp only [List.getElem?_cons_zero, Option.some.injEq] at hy
          omega
    · next h =>
      rw [firstOutOfRange_eq_some]
      constructor
      · rintro ⟨k, rfl, ⟨x, hx, hbad⟩, hall⟩
        refine ⟨k + 1, by omega, ⟨x, by simpa using hx, hbad⟩, fun k' hk' => ?_⟩
        cases k' with
        | zero => exact ⟨s, rfl, by omega⟩
        | succ k' => simpa using hall k' (by omega)
      · rintro ⟨k, rfl, ⟨x, hx, hbad⟩, hall⟩
        cases k with
        | zero =>
          simp only [List.getElem?_cons_zero, Option.some.injEq] at hx
          omega
        | succ k =>
          refine ⟨k, by omega, ⟨x, by simpa using hx, hbad⟩, fun k' hk' => ?_⟩
          simpa using hall (k' + 1) (by omega)

end Machine

end Sys2Proof
end

