-- ==== Sys2Proof/Laws/State.lean ====
section
/-! SUPPORT. One lemma per field per update of the state, so that no proof unfolds a record update, and the
read-after-write laws of a register bank. -/

namespace Sys2Proof.Machine

/-! ### Register banks -/

/-- A register of a bank after a write to a register. -/
theorem Bank.get_set (b : Bank) (i j : Fin 8) (w : Word) :
    (b.set i w).get j = if i = j then w else b.get j := by
  fin_cases i <;> fin_cases j <;> rfl

@[simp] theorem Bank.get_zero (i : Fin 8) : Bank.zero.get i = 0 := by
  fin_cases i <;> rfl

/-! ### The completion states are what the commit leaves -/

@[simp] theorem commitOk_eq (s : State) (rs : List Int) (ws : List (Nat × Int)) (k : Nat) :
    commitOk s rs ws k = okState s (Bank.ofResults rs) (s.mem.commit ws) k := rfl

@[simp] theorem commitErr_eq (s : State) (code : ErrCode) (stage : Stage) (info k : Nat) :
    commitErr s code stage info k = errState s code stage info k := rfl

@[simp] theorem softReset_eq (s : State) : softReset s = resetRegisters s := rfl

/-! ### okState -/

@[simp] theorem okState_build (s : State) (res : Bank) (mem : Memory) (iters : Nat) :
    (okState s res mem iters).build = s.build := rfl

@[simp] theorem okState_ops (s : State) (res : Bank) (mem : Memory) (iters : Nat) :
    (okState s res mem iters).ops = s.ops := rfl

@[simp] theorem okState_res (s : State) (res : Bank) (mem : Memory) (iters : Nat) :
    (okState s res mem iters).res = res := rfl

@[simp] theorem okState_cmd (s : State) (res : Bank) (mem : Memory) (iters : Nat) :
    (okState s res mem iters).cmd = s.cmd := rfl

@[simp] theorem okState_ie (s : State) (res : Bank) (mem : Memory) (iters : Nat) :
    (okState s res mem iters).ie = s.ie := rfl

@[simp] theorem okState_done (s : State) (res : Bank) (mem : Memory) (iters : Nat) :
    (okState s res mem iters).done = true := rfl

@[simp] theorem okState_werr (s : State) (res : Bank) (mem : Memory) (iters : Nat) :
    (okState s res mem iters).werr = s.werr := rfl

@[simp] theorem okState_errCode (s : State) (res : Bank) (mem : Memory) (iters : Nat) :
    (okState s res mem iters).errCode = .ok := rfl

@[simp] theorem okState_errStage (s : State) (res : Bank) (mem : Memory) (iters : Nat) :
    (okState s res mem iters).errStage = .none := rfl

@[simp] theorem okState_budget (s : State) (res : Bank) (mem : Memory) (iters : Nat) :
    (okState s res mem iters).budget = s.budget := rfl

@[simp] theorem okState_iters (s : State) (res : Bank) (mem : Memory) (iters : Nat) :
    (okState s res mem iters).iters = BitVec.ofNat 64 iters := rfl

@[simp] theorem okState_errInfo (s : State) (res : Bank) (mem : Memory) (iters : Nat) :
    (okState s res mem iters).errInfo = 0 := rfl

@[simp] theorem okState_mem (s : State) (res : Bank) (mem : Memory) (iters : Nat) :
    (okState s res mem iters).mem = mem := rfl

@[simp] theorem okState_engine (s : State) (res : Bank) (mem : Memory) (iters : Nat) :
    (okState s res mem iters).engine = .idle := rfl

@[simp] theorem okState_draws (s : State) (res : Bank) (mem : Memory) (iters : Nat) :
    (okState s res mem iters).draws = s.draws := rfl

@[simp] theorem okState_schedule (s : State) (res : Bank) (mem : Memory) (iters : Nat) :
    (okState s res mem iters).schedule = s.schedule := rfl

@[simp] theorem okState_program (s : State) (res : Bank) (mem : Memory) (iters : Nat) :
    (okState s res mem iters).program = s.program := rfl

@[simp] theorem okState_resp (s : State) (res : Bank) (mem : Memory) (iters : Nat) :
    (okState s res mem iters).resp = s.resp := rfl

/-! ### errState -/

@[simp] theorem errState_build (s : State) (code : ErrCode) (stage : Stage) (info iters : Nat) :
    (errState s code stage info iters).build = s.build := rfl

@[simp] theorem errState_ops (s : State) (code : ErrCode) (stage : Stage) (info iters : Nat) :
    (errState s code stage info iters).ops = s.ops := rfl

@[simp] theorem errState_res (s : State) (code : ErrCode) (stage : Stage) (info iters : Nat) :
    (errState s code stage info iters).res = Bank.zero := rfl

@[simp] theorem errState_cmd (s : State) (code : ErrCode) (stage : Stage) (info iters : Nat) :
    (errState s code stage info iters).cmd = s.cmd := rfl

@[simp] theorem errState_ie (s : State) (code : ErrCode) (stage : Stage) (info iters : Nat) :
    (errState s code stage info iters).ie = s.ie := rfl

@[simp] theorem errState_done (s : State) (code : ErrCode) (stage : Stage) (info iters : Nat) :
    (errState s code stage info iters).done = true := rfl

@[simp] theorem errState_werr (s : State) (code : ErrCode) (stage : Stage) (info iters : Nat) :
    (errState s code stage info iters).werr = s.werr := rfl

@[simp] theorem errState_errCode (s : State) (code : ErrCode) (stage : Stage) (info iters : Nat) :
    (errState s code stage info iters).errCode = code := rfl

@[simp] theorem errState_errStage (s : State) (code : ErrCode) (stage : Stage) (info iters : Nat) :
    (errState s code stage info iters).errStage = stage := rfl

@[simp] theorem errState_budget (s : State) (code : ErrCode) (stage : Stage) (info iters : Nat) :
    (errState s code stage info iters).budget = s.budget := rfl

@[simp] theorem errState_iters (s : State) (code : ErrCode) (stage : Stage) (info iters : Nat) :
    (errState s code stage info iters).iters = BitVec.ofNat 64 iters := rfl

@[simp] theorem errState_errInfo (s : State) (code : ErrCode) (stage : Stage) (info iters : Nat) :
    (errState s code stage info iters).errInfo = BitVec.ofNat 64 info := rfl

@[simp] theorem errState_mem (s : State) (code : ErrCode) (stage : Stage) (info iters : Nat) :
    (errState s code stage info iters).mem = s.mem := rfl

@[simp] theorem errState_engine (s : State) (code : ErrCode) (stage : Stage) (info iters : Nat) :
    (errState s code stage info iters).engine = .idle := rfl

@[simp] theorem errState_draws (s : State) (code : ErrCode) (stage : Stage) (info iters : Nat) :
    (errState s code stage info iters).draws = s.draws := rfl

@[simp] theorem errState_schedule (s : State) (code : ErrCode) (stage : Stage) (info iters : Nat) :
    (errState s code stage info iters).schedule = s.schedule := rfl

@[simp] theorem errState_program (s : State) (code : ErrCode) (stage : Stage) (info iters : Nat) :
    (errState s code stage info iters).program = s.program := rfl

@[simp] theorem errState_resp (s : State) (code : ErrCode) (stage : Stage) (info iters : Nat) :
    (errState s code stage info iters).resp = s.resp := rfl

/-! ### startCommand -/

@[simp] theorem startCommand_build (s : State) (w : Word) :
    (startCommand s w).build = s.build := rfl

@[simp] theorem startCommand_ops (s : State) (w : Word) :
    (startCommand s w).ops = s.ops := rfl

@[simp] theorem startCommand_res (s : State) (w : Word) :
    (startCommand s w).res = s.res := rfl

@[simp] theorem startCommand_cmd (s : State) (w : Word) :
    (startCommand s w).cmd = w := rfl

@[simp] theorem startCommand_ie (s : State) (w : Word) :
    (startCommand s w).ie = s.ie := rfl

@[simp] theorem startCommand_done (s : State) (w : Word) :
    (startCommand s w).done = false := rfl

@[simp] theorem startCommand_werr (s : State) (w : Word) :
    (startCommand s w).werr = s.werr := rfl

@[simp] theorem startCommand_errCode (s : State) (w : Word) :
    (startCommand s w).errCode = s.errCode := rfl

@[simp] theorem startCommand_errStage (s : State) (w : Word) :
    (startCommand s w).errStage = s.errStage := rfl

@[simp] theorem startCommand_budget (s : State) (w : Word) :
    (startCommand s w).budget = s.budget := rfl

@[simp] theorem startCommand_iters (s : State) (w : Word) :
    (startCommand s w).iters = s.iters := rfl

@[simp] theorem startCommand_errInfo (s : State) (w : Word) :
    (startCommand s w).errInfo = s.errInfo := rfl

@[simp] theorem startCommand_mem (s : State) (w : Word) :
    (startCommand s w).mem = s.mem := rfl

@[simp] theorem startCommand_engine (s : State) (w : Word) :
    (startCommand s w).engine = .busy (s.latchNow w) := rfl

@[simp] theorem startCommand_draws (s : State) (w : Word) :
    (startCommand s w).draws = s.draws := rfl

@[simp] theorem startCommand_schedule (s : State) (w : Word) :
    (startCommand s w).schedule = s.schedule := rfl

@[simp] theorem startCommand_program (s : State) (w : Word) :
    (startCommand s w).program = s.program := rfl

@[simp] theorem startCommand_resp (s : State) (w : Word) :
    (startCommand s w).resp = s.resp := rfl

/-! ### resetRegisters -/

@[simp] theorem resetRegisters_build (s : State) :
    (resetRegisters s).build = s.build := rfl

@[simp] theorem resetRegisters_ops (s : State) :
    (resetRegisters s).ops = Bank.zero := rfl

@[simp] theorem resetRegisters_res (s : State) :
    (resetRegisters s).res = Bank.zero := rfl

@[simp] theorem resetRegisters_cmd (s : State) :
    (resetRegisters s).cmd = 0 := rfl

@[simp] theorem resetRegisters_ie (s : State) :
    (resetRegisters s).ie = false := rfl

@[simp] theorem resetRegisters_done (s : State) :
    (resetRegisters s).done = false := rfl

@[simp] theorem resetRegisters_werr (s : State) :
    (resetRegisters s).werr = false := rfl

@[simp] theorem resetRegisters_errCode (s : State) :
    (resetRegisters s).errCode = .ok := rfl

@[simp] theorem resetRegisters_errStage (s : State) :
    (resetRegisters s).errStage = .none := rfl

@[simp] theorem resetRegisters_budget (s : State) :
    (resetRegisters s).budget = 0 := rfl

@[simp] theorem resetRegisters_iters (s : State) :
    (resetRegisters s).iters = 0 := rfl

@[simp] theorem resetRegisters_errInfo (s : State) :
    (resetRegisters s).errInfo = 0 := rfl

@[simp] theorem resetRegisters_mem (s : State) :
    (resetRegisters s).mem = s.mem := rfl

@[simp] theorem resetRegisters_engine (s : State) :
    (resetRegisters s).engine = .idle := rfl

@[simp] theorem resetRegisters_draws (s : State) :
    (resetRegisters s).draws = s.draws := rfl

@[simp] theorem resetRegisters_schedule (s : State) :
    (resetRegisters s).schedule = s.schedule := rfl

@[simp] theorem resetRegisters_program (s : State) :
    (resetRegisters s).program = s.program := rfl

@[simp] theorem resetRegisters_resp (s : State) :
    (resetRegisters s).resp = s.resp := rfl

/-! ### powerOnReset -/

@[simp] theorem powerOnReset_build (s : State) :
    (powerOnReset s).build = s.build := rfl

@[simp] theorem powerOnReset_ops (s : State) :
    (powerOnReset s).ops = Bank.zero := rfl

@[simp] theorem powerOnReset_res (s : State) :
    (powerOnReset s).res = Bank.zero := rfl

@[simp] theorem powerOnReset_cmd (s : State) :
    (powerOnReset s).cmd = 0 := rfl

@[simp] theorem powerOnReset_ie (s : State) :
    (powerOnReset s).ie = false := rfl

@[simp] theorem powerOnReset_done (s : State) :
    (powerOnReset s).done = false := rfl

@[simp] theorem powerOnReset_werr (s : State) :
    (powerOnReset s).werr = false := rfl

@[simp] theorem powerOnReset_errCode (s : State) :
    (powerOnReset s).errCode = .ok := rfl

@[simp] theorem powerOnReset_errStage (s : State) :
    (powerOnReset s).errStage = .none := rfl

@[simp] theorem powerOnReset_budget (s : State) :
    (powerOnReset s).budget = 0 := rfl

@[simp] theorem powerOnReset_iters (s : State) :
    (powerOnReset s).iters = 0 := rfl

@[simp] theorem powerOnReset_errInfo (s : State) :
    (powerOnReset s).errInfo = 0 := rfl

@[simp] theorem powerOnReset_mem (s : State) :
    (powerOnReset s).mem = [] := rfl

@[simp] theorem powerOnReset_engine (s : State) :
    (powerOnReset s).engine = .idle := rfl

@[simp] theorem powerOnReset_draws (s : State) :
    (powerOnReset s).draws = s.draws := rfl

@[simp] theorem powerOnReset_schedule (s : State) :
    (powerOnReset s).schedule = s.schedule := rfl

@[simp] theorem powerOnReset_program (s : State) :
    (powerOnReset s).program = s.program := rfl

@[simp] theorem powerOnReset_resp (s : State) :
    (powerOnReset s).resp = none := rfl

/-! ### writeStatus -/

@[simp] theorem writeStatus_build (s : State) (v : Word) :
    (writeStatus s v).build = s.build := rfl

@[simp] theorem writeStatus_ops (s : State) (v : Word) :
    (writeStatus s v).ops = s.ops := rfl

@[simp] theorem writeStatus_res (s : State) (v : Word) :
    (writeStatus s v).res = s.res := rfl

@[simp] theorem writeStatus_cmd (s : State) (v : Word) :
    (writeStatus s v).cmd = s.cmd := rfl

@[simp] theorem writeStatus_ie (s : State) (v : Word) :
    (writeStatus s v).ie = s.ie := rfl

@[simp] theorem writeStatus_done (s : State) (v : Word) :
    (writeStatus s v).done = (s.done && !v.getLsbD 1) := rfl

@[simp] theorem writeStatus_werr (s : State) (v : Word) :
    (writeStatus s v).werr = (s.werr && !v.getLsbD 2) := rfl

@[simp] theorem writeStatus_errCode (s : State) (v : Word) :
    (writeStatus s v).errCode = s.errCode := rfl

@[simp] theorem writeStatus_errStage (s : State) (v : Word) :
    (writeStatus s v).errStage = s.errStage := rfl

@[simp] theorem writeStatus_budget (s : State) (v : Word) :
    (writeStatus s v).budget = s.budget := rfl

@[simp] theorem writeStatus_iters (s : State) (v : Word) :
    (writeStatus s v).iters = s.iters := rfl

@[simp] theorem writeStatus_errInfo (s : State) (v : Word) :
    (writeStatus s v).errInfo = s.errInfo := rfl

@[simp] theorem writeStatus_mem (s : State) (v : Word) :
    (writeStatus s v).mem = s.mem := rfl

@[simp] theorem writeStatus_engine (s : State) (v : Word) :
    (writeStatus s v).engine = s.engine := rfl

@[simp] theorem writeStatus_draws (s : State) (v : Word) :
    (writeStatus s v).draws = s.draws := rfl

@[simp] theorem writeStatus_schedule (s : State) (v : Word) :
    (writeStatus s v).schedule = s.schedule := rfl

@[simp] theorem writeStatus_program (s : State) (v : Word) :
    (writeStatus s v).program = s.program := rfl

@[simp] theorem writeStatus_resp (s : State) (v : Word) :
    (writeStatus s v).resp = s.resp := rfl

end Sys2Proof.Machine
end

