-- ==== Sys2Proof/Laws/Bus.lean ====
section
/-! SUPPORT. The register map both ways, and everything one host access can do (10_state.md R23, R44,
20_memory.md R65). -/

namespace Sys2Proof.Machine

/-! ### The register map -/

theorem regOffset_lt (r : Reg) : regOffset r < 0xC0 ∧ regOffset r % 8 = 0 := by
  cases r with
  | op i => simp only [regOffset]; omega
  | res i => simp only [regOffset]; omega
  | _ => simp [regOffset]

theorem decodeRegister_regOffset (r : Reg) : decodeRegister (regOffset r / 8) = some r := by
  cases r with
  | op i => fin_cases i <;> rfl
  | res i => fin_cases i <;> rfl
  | _ => rfl

theorem regOffset_of_decodeRegister {k : Nat} {r : Reg} (h : decodeRegister k = some r) :
    regOffset r = 8 * k := by
  unfold decodeRegister at h
  split at h
  · cases h; simp only [regOffset]; omega
  · split at h
    · cases h; simp only [regOffset]; omega
    · split at h <;> first | (cases h; rfl) | cases h

/-- An offset names a register exactly at that register's offset. -/
theorem decodeOffset_reg {n off : Nat} {r : Reg} :
    decodeOffset n off = some (.reg r) ↔ off = regOffset r := by
  constructor
  · intro h
    unfold decodeOffset at h
    split at h
    · cases h
    · split at h
      · simp only [Option.map_eq_some_iff, Target.reg.injEq] at h
        obtain ⟨r', hr, rfl⟩ := h
        have := regOffset_of_decodeRegister hr
        omega
      · split at h <;> simp at h
  · rintro rfl
    obtain ⟨h1, h2⟩ := regOffset_lt r
    unfold decodeOffset
    rw [if_neg (by omega), if_pos (by omega), decodeRegister_regOffset]
    rfl

/-- An offset names symbol word `i` exactly at `0x1000 + 8·i`, inside the memory. -/
theorem decodeOffset_sym {n off i : Nat} :
    decodeOffset n off = some (.sym i) ↔ off = symOffset i ∧ i < n := by
  unfold decodeOffset symOffset
  constructor
  · intro h
    split at h
    · cases h
    · split at h
      · simp at h
      · split at h
        · simp only [Option.some.injEq, Target.sym.injEq] at h
          omega
        · cases h
  · rintro ⟨rfl, hi⟩
    rw [if_neg (by omega), if_neg (by omega), if_pos (by omega)]
    congr 2; omega

/-! ### One host access -/

/-- Everything one host access can do. -/
theorem busAccess_cases (s : State) (a : Access) :
    -- a read, an ignored write, or an access outside the window
    (∃ r d, busAccess s a = { s with resp := r, draws := d }) ∨
    -- an error response, or a write dropped while BUSY
    (∃ r, busAccess s a = { s with resp := r, werr := true }) ∨
    -- CTRL: soft reset, or IE
    (busAccess s a = { resetRegisters s with resp := some .writeOk }) ∨
    (∃ b, busAccess s a = { s with resp := some .writeOk, ie := b }) ∨
    -- STATUS
    (∃ v, busAccess s a = { writeStatus s v with resp := some .writeOk }) ∨
    -- CMD, BUDGET, an operand register, a symbol word, while IDLE
    (s.engine = .idle ∧ ∃ w, busAccess s a = { startCommand s w with resp := some .writeOk }) ∨
    (s.engine = .idle ∧ ∃ v, busAccess s a = { s with resp := some .writeOk, budget := v }) ∨
    (s.engine = .idle ∧ ∃ i v, busAccess s a = { s with resp := some .writeOk, ops := s.ops.set i v }) ∨
    (s.engine = .idle ∧ ∃ i v, i < s.build.memWords ∧
      busAccess s a = { s with resp := some .writeOk, mem := s.mem.storeSym i v }) := by
  have hidle : s.busy = false → s.engine = .idle := by
    intro h; unfold State.busy at h; split at h <;> simp_all
  unfold busAccess
  split
  · exact .inl ⟨_, _, rfl⟩
  · split
    · cases a.kind with
      | read => exact .inr (.inl ⟨_, rfl⟩)
      | write v => exact .inr (.inl ⟨_, rfl⟩)
    · next off _ _ t ht =>
      cases a.kind with
      | read =>
        cases t with
        | reg r => exact .inl ⟨_, _, rfl⟩
        | sym i =>
          simp only [readTarget]
          split
          · exact .inl ⟨_, _, rfl⟩
          · exact .inl ⟨_, _, rfl⟩
      | write v =>
        cases t with
        | sym i =>
          have hi : i < s.build.memWords := by
            unfold accessTarget at ht
            split at ht
            · exact (decodeOffset_sym.mp ht).2
            · cases ht
          simp only [writeTarget, writeUnlessBusy]
          split
          · exact .inr (.inl ⟨_, rfl⟩)
          · next hb => exact .inr (.inr (.inr (.inr (.inr (.inr (.inr (.inr
              ⟨hidle (by simpa using hb), i, v, hi, rfl⟩)))))))
        | reg r =>
          cases r with
          | ctrl =>
            simp only [writeTarget, writeRegister, writeCtrl]
            split
            · exact .inr (.inr (.inl rfl))
            · exact .inr (.inr (.inr (.inl ⟨_, rfl⟩)))
          | status => exact .inr (.inr (.inr (.inr (.inl ⟨v, rfl⟩))))
          | cmd =>
            simp only [writeTarget, writeRegister, writeUnlessBusy]
            split
            · exact .inr (.inl ⟨_, rfl⟩)
            · next hb => exact .inr (.inr (.inr (.inr (.inr (.inl ⟨hidle (by simpa using hb), v, rfl⟩)))))
          | budget =>
            simp only [writeTarget, writeRegister, writeUnlessBusy]
            split
            · exact .inr (.inl ⟨_, rfl⟩)
            · next hb => exact .inr (.inr (.inr (.inr (.inr (.inr (.inl
                ⟨hidle (by simpa using hb), v, rfl⟩))))))
          | op i =>
            simp only [writeTarget, writeRegister, writeUnlessBusy]
            split
            · exact .inr (.inl ⟨_, rfl⟩)
            · next hb => exact .inr (.inr (.inr (.inr (.inr (.inr (.inr (.inl
                ⟨hidle (by simpa using hb), i, v, rfl⟩)))))))
          | id => exact .inl ⟨_, _, rfl⟩
          | cap => exact .inl ⟨_, _, rfl⟩
          | iters => exact .inl ⟨_, _, rfl⟩
          | errInfo => exact .inl ⟨_, _, rfl⟩
          | res i => exact .inl ⟨_, _, rfl⟩

/-- An aligned 64-bit access to a named offset of the window reaches its target. -/
theorem busAccess_target {s : State} {t : Target} (kind : AccessKind)
    (ht : decodeOffset s.build.memWords (targetOffset t) = some t) (hlt : targetOffset t < 65536) :
    busAccess s ⟨s.build.base + targetOffset t, 8, kind⟩ =
      match kind with
      | .read => readTarget s t
      | .write v => writeTarget s t v := by
  have hw : windowOffset s.build (s.build.base + targetOffset t) = some (targetOffset t) := by
    unfold windowOffset
    rw [if_pos ⟨by omega, by omega⟩]
    simp
  cases kind <;> simp only [busAccess, hw, accessTarget, if_true, ht]

end Sys2Proof.Machine
end

