-- ==== Sys2Proof/Laws/Ops.lean ====
section
/-! SUPPORT. What a command can do: the inversion of `commit`, one meaning as the commit of its outcome,
and what `cipherMap` can answer. -/

namespace Sys2Proof.Machine

/-- The outcome of a command as a function of `MEM_WORDS` and the latch (00_scope.md R14). -/
def outcomeOf (memWords : Nat) : Instr → Latch → CmdOutcome
  | .gcd, l => gcdCmd l
  | .coprime, l => coprimeCmd l
  | .modpow, l => modpowCmd l
  | .modinv, l => modinvCmd l
  | .choosee, l => chooseeCmd l
  | .keygen, l => keygenCmd l
  | .keygenAuto, l => keygenAutoCmd l
  | .encrypt, l => cipherCmd memWords l
  | .decrypt, l => cipherCmd memWords l
  | .factorize, l => factorizeCmd l
  | .totient, l => totientCmd l
  | .recoverd, l => recoverdCmd l
  | .crack, l => crackCmd memWords l

/-- Every meaning commits its command's outcome. -/
theorem exec_eq_commit (i : Instr) (s : State) :
    exec i s = commit s (outcomeOf s.build.memWords i s.inputs) := by
  cases i <;> rfl

/-- Everything `commit` can do. -/
theorem commit_cases (s : State) (o : CmdOutcome) :
    (∃ rs ws k, o = .ok rs ws k ∧ commit s o = .next (okState s (Bank.ofResults rs) (s.mem.commit ws) k)) ∨
    (∃ code stage info k, o = .err code stage info k ∧ commit s o = .next (errState s code stage info k)) ∨
    (o = .uninitSymbolRead ∧ commit s o = .fault .uninitSymbolRead) := by
  cases o with
  | ok rs ws k => exact .inl ⟨rs, ws, k, rfl, rfl⟩
  | err code stage info k => exact .inr (.inl ⟨code, stage, info, k, rfl, rfl⟩)
  | uninitSymbolRead => exact .inr (.inr ⟨rfl, rfl⟩)

/-- If `commit` answers a next state, the outcome was a success or an error, and the state is its
completion. -/
theorem commit_next {s t : State} {o : CmdOutcome} (h : commit s o = .next t) :
    (∃ rs ws k, o = .ok rs ws k ∧ t = okState s (Bank.ofResults rs) (s.mem.commit ws) k) ∨
    (∃ code stage info k, o = .err code stage info k ∧ t = errState s code stage info k) := by
  cases o with
  | ok rs ws k => cases h; exact .inl ⟨rs, ws, k, rfl, rfl⟩
  | err code stage info k => cases h; exact .inr ⟨code, stage, info, k, rfl, rfl⟩
  | uninitSymbolRead => cases h

theorem commit_ok (s : State) (rs : List Int) (ws : List (Nat × Int)) (k : Nat) :
    commit s (.ok rs ws k) = .next (okState s (Bank.ofResults rs) (s.mem.commit ws) k) := rfl

theorem commit_err (s : State) (code : ErrCode) (stage : Stage) (info k : Nat) :
    commit s (.err code stage info k) = .next (errState s code stage info k) := rfl

theorem commit_complete (s : State) (rs : List Int) :
    commit s (complete rs) = .next (okState s (Bank.ofResults rs) s.mem 0) := rfl

theorem commit_raise (s : State) (code : ErrCode) :
    commit s (raise code) = .next (errState s code .none 0 0) := rfl

/-- The one result of a one-result command. -/
theorem ofResults_one (v : Int) : Bank.ofResults [v] = Bank.one (enc64 v) := rfl

/-- The cipher faults exactly when its source range holds an unwritten word (20_memory.md R61). -/
theorem cipherMap_uninit {k : Nat} {n : Int} {l : Latch} {st : Stage} {rs : List Int} {it : Nat} :
    cipherMap k n l st rs it = .uninitSymbolRead ↔ ¬ SourceWritten l := by
  unfold cipherMap SourceWritten
  cases hr : readSymbols l.sym0 (srcOf l) (lenOf l) with
  | none =>
    obtain ⟨i, hi, h⟩ := readSymbols_eq_none.mp hr
    simp only [true_iff, not_forall]
    exact ⟨i, hi, by simp [h]⟩
  | some ss =>
    obtain ⟨_, hall⟩ := readSymbols_eq_some.mp hr
    have hw : ∀ i, i < lenOf l → (l.sym0.loadSym (srcOf l + i)).isSome := fun i hi => by
      obtain ⟨w, h, _⟩ := hall i hi; simp [h]
    refine iff_of_false ?_ (not_not.mpr hw)
    dsimp only
    split <;> simp

/-- Everything `cipherMap` can answer when the source is written: the lowest offending index, or the
transformed symbols (R161, R162). -/
theorem cipherMap_written {k : Nat} {n : Int} {l : Latch} {st : Stage} {rs : List Int} {it : Nat}
    (h : SourceWritten l) :
    ∃ ss : List Int, ss.length = lenOf l ∧
      (∀ i, i < lenOf l → ∃ w, l.sym0.loadSym (srcOf l + i) = some w ∧ ss[i]? = some (s64 w)) ∧
      ((∃ j, firstOutOfRange n 0 ss = some j ∧ cipherMap k n l st rs it = .err .symbolOutOfRange st j it) ∨
       ((∀ x ∈ ss, 0 ≤ x ∧ x < n) ∧
        cipherMap k n l st rs it = .ok rs (writesAt (dstOf l) (ss.map fun x => modpow x k n)) it)) := by
  cases hr : readSymbols l.sym0 (srcOf l) (lenOf l) with
  | none =>
    obtain ⟨i, hi, hn⟩ := readSymbols_eq_none.mp hr
    have := h i hi
    simp [hn] at this
  | some ss =>
    obtain ⟨hl, hall⟩ := readSymbols_eq_some.mp hr
    refine ⟨ss, hl, hall, ?_⟩
    cases hf : firstOutOfRange n 0 ss with
    | some j => exact .inl ⟨j, rfl, by simp [cipherMap, hr, hf]⟩
    | none => exact .inr ⟨firstOutOfRange_eq_none.mp hf, by simp [cipherMap, hr, hf]⟩

end Sys2Proof.Machine
end

