-- ==== Sys2Proof/Laws/Commands.lean ====
section
/-! SUPPORT. Everything a command's outcome can be, said once per command and once for all
(60_exceptions.md R211, R213, R214): results nonnegative and fitting, the error codes and stages it may
raise, where it writes, and a candidate count that fits ITERS. -/

namespace Sys2Proof.Machine

/-- A signed operand lies in `[-2^63, 2^63-1]` (00_scope.md R5). -/
theorem opS_range (l : Latch) (i : Fin 8) : -2 ^ 63 ≤ opS l i ∧ opS l i ≤ maxS64 := by
  have h1 := BitVec.le_toInt (l.ops.get i)
  have h2 := BitVec.toInt_lt (x := l.ops.get i)
  unfold opS s64 maxS64
  omega

/-- The candidates tested never exceed those there are. -/
theorem scan_tested_le {test : Int → Bool} {budget left : Nat} {v : Int} :
    match scan test budget left 0 v with
    | .found _ k => k ≤ left
    | .exhausted k => k ≤ left
    | .overBudget k => k ≤ left := by
  have h := scan_spec test budget left 0 v (by omega)
  generalize scan test budget left 0 v = r at h
  match r, h with
  | .found w k, ⟨j, hj, _, hk, _⟩ => simp only; omega
  | .exhausted k, ⟨hk, _⟩ => simp only; omega
  | .overBudget k, ⟨hk, _, hlt, _⟩ => simp only; omega

/-- The stages a command may fail at (10_state.md R31, 43_cracker.md R186). -/
def stagesOf : Instr → List Stage
  | .crack => [.args, .factorize, .recover, .decrypt]
  | .gcd | .coprime | .modpow | .modinv | .choosee | .keygen | .keygenAuto => [.none]
  | .encrypt | .decrypt | .factorize | .totient | .recoverd => [.none]

/-- What holds of every outcome of command `i` on latch `l`. -/
def OutcomeLegal (memWords : Nat) (i : Instr) (l : Latch) : CmdOutcome → Prop
  | .ok rs ws k =>
    (∀ r ∈ rs, 0 ≤ r ∧ r ≤ maxS64) ∧ k < 2 ^ 64 ∧
    ((usesSymbols i = false ∧ ws = []) ∨
     (usesSymbols i = true ∧ rangeOk memWords l = true ∧
      ∃ vs : List Int, vs.length = lenOf l ∧ ws = writesAt (dstOf l) vs))
  | .err code stage info k =>
    code ∈ codesOf i ∧ code ≠ .ok ∧ stage ∈ stagesOf i ∧ (info ≠ 0 → code = .symbolOutOfRange) ∧ k < 2 ^ 64
  | .uninitSymbolRead => usesSymbols i = true ∧ rangeOk memWords l = true ∧ ¬ SourceWritten l

/-! ### The scans, in mathematical terms -/

/-- Everything `choose_e` can answer (R118). -/
theorem chooseE_spec (phi : Int) (budget : Nat) :
    match chooseE phi budget with
    | .found v k => 2 ≤ v ∧ v < phi ∧ Int.gcd v phi = 1 ∧ (k : Int) = v - 1 ∧
        (∀ u : Int, 2 ≤ u → u < v → Int.gcd u phi ≠ 1) ∧ (budget = 0 ∨ k ≤ budget)
    | .exhausted k => phi ≤ 2 ∧ k = 0
    | .overBudget k => k = budget ∧ budget ≠ 0 ∧ (budget : Int) < phi - 2 ∧
        (∀ u : Int, 2 ≤ u → u < budget + 2 → Int.gcd u phi ≠ 1) := by
  have h := scan_spec (fun v => euclid v phi == 1) budget (phi - 2).toNat 0 2 (by omega)
  unfold chooseE
  generalize scan (fun v => euclid v phi == 1) budget (phi - 2).toNat 0 2 = r at h
  simp only [beq_iff_eq, beq_eq_false_iff_ne, euclid_eq_gcd] at h
  match r, h with
  | .found v k, ⟨j, hj, hv, hk, ht, hf, hb⟩ =>
    refine ⟨by omega, by omega, ht, by omega, fun u h1 h2 => ?_, hb⟩
    have := hf (u - 2).toNat (by omega)
    rwa [show (2 : Int) + ((u - 2).toNat : Int) = u by omega] at this
  | .exhausted k, ⟨hk, hf, _⟩ =>
    by_cases hphi : phi ≤ 2
    · exact ⟨hphi, by omega⟩
    · have := hf (phi - 3).toNat (by omega)
      rw [show (2 : Int) + ((phi - 3).toNat : Int) = phi - 1 by omega] at this
      exact absurd (by simp) this
  | .overBudget k, ⟨hk, hb, hlt, hf⟩ =>
    refine ⟨hk, hb, by omega, fun u h1 h2 => ?_⟩
    have := hf (u - 2).toNat (by omega)
    rwa [show (2 : Int) + ((u - 2).toNat : Int) = u by omega] at this

/-- Everything `factor_scan` can answer (R180). -/
theorem factorScan_spec (n : Int) (budget : Nat) :
    match factorScan n budget with
    | .found p k => 2 ≤ p ∧ p < n ∧ p ∣ n ∧ (k : Int) = p - 1 ∧
        (∀ u : Int, 2 ≤ u → u < p → ¬ u ∣ n) ∧ (budget = 0 ∨ k ≤ budget)
    | .exhausted k => k = (n - 2).toNat ∧ (∀ u : Int, 2 ≤ u → u < n → ¬ u ∣ n) ∧ (budget = 0 ∨ k ≤ budget)
    | .overBudget k => k = budget ∧ budget ≠ 0 ∧ (budget : Int) < n - 2 ∧
        (∀ u : Int, 2 ≤ u → u < budget + 2 → ¬ u ∣ n) := by
  have h := scan_spec (fun k => emod n k == 0) budget (n - 2).toNat 0 2 (by omega)
  unfold factorScan
  generalize scan (fun k => emod n k == 0) budget (n - 2).toNat 0 2 = r at h
  simp only [beq_iff_eq, beq_eq_false_iff_ne, emod_eq, ne_eq, ← Int.dvd_iff_emod_eq_zero] at h
  match r, h with
  | .found v k, ⟨j, hj, hv, hk, ht, hf, hb⟩ =>
    refine ⟨by omega, by omega, ht, by omega, fun u h1 h2 => ?_, hb⟩
    have := hf (u - 2).toNat (by omega)
    rwa [show (2 : Int) + ((u - 2).toNat : Int) = u by omega] at this
  | .exhausted k, ⟨hk, hf, hb⟩ =>
    refine ⟨by omega, fun u h1 h2 => ?_, hb⟩
    have := hf (u - 2).toNat (by omega)
    rwa [show (2 : Int) + ((u - 2).toNat : Int) = u by omega] at this
  | .overBudget k, ⟨hk, hb, hlt, hf⟩ =>
    refine ⟨hk, hb, by omega, fun u h1 h2 => ?_⟩
    have := hf (u - 2).toNat (by omega)
    rwa [show (2 : Int) + ((u - 2).toNat : Int) = u by omega] at this

/-- Everything `recover_scan` can answer (R184). -/
theorem recoverScan_spec (e phi : Int) (budget : Nat) :
    match recoverScan e phi budget with
    | .found d k => 1 ≤ d ∧ d < phi ∧ (e * d) % phi = 1 ∧ (k : Int) = d ∧
        (∀ u : Int, 1 ≤ u → u < d → (e * u) % phi ≠ 1) ∧ (budget = 0 ∨ k ≤ budget)
    | .exhausted k => k = (phi - 1).toNat ∧ (∀ u : Int, 1 ≤ u → u < phi → (e * u) % phi ≠ 1) ∧
        (budget = 0 ∨ k ≤ budget)
    | .overBudget k => k = budget ∧ budget ≠ 0 ∧ (budget : Int) < phi - 1 ∧
        (∀ u : Int, 1 ≤ u → u < budget + 1 → (e * u) % phi ≠ 1) := by
  have h := scan_spec (fun d => emod (e * d) phi == 1) budget (phi - 1).toNat 0 1 (by omega)
  unfold recoverScan
  generalize scan (fun d => emod (e * d) phi == 1) budget (phi - 1).toNat 0 1 = r at h
  simp only [beq_iff_eq, beq_eq_false_iff_ne, emod_eq] at h
  match r, h with
  | .found v k, ⟨j, hj, hv, hk, ht, hf, hb⟩ =>
    refine ⟨by omega, by omega, ht, by omega, fun u h1 h2 => ?_, hb⟩
    have := hf (u - 1).toNat (by omega)
    rwa [show (1 : Int) + ((u - 1).toNat : Int) = u by omega] at this
  | .exhausted k, ⟨hk, hf, hb⟩ =>
    refine ⟨by omega, fun u h1 h2 => ?_, hb⟩
    have := hf (u - 1).toNat (by omega)
    rwa [show (1 : Int) + ((u - 1).toNat : Int) = u by omega] at this
  | .overBudget k, ⟨hk, hb, hlt, hf⟩ =>
    refine ⟨hk, hb, by omega, fun u h1 h2 => ?_⟩
    have := hf (u - 1).toNat (by omega)
    rwa [show (1 : Int) + ((u - 1).toNat : Int) = u by omega] at this

/-! ### The commands -/

theorem gcdCmd_legal (n : Nat) (l : Latch) : OutcomeLegal n .gcd l (gcdCmd l) := by
  unfold gcdCmd
  dsimp only
  split
  · simp [raise, OutcomeLegal, codesOf, stagesOf]
  · next h => simp [complete, OutcomeLegal, usesSymbols]; omega

theorem coprimeCmd_legal (n : Nat) (l : Latch) : OutcomeLegal n .coprime l (coprimeCmd l) := by
  unfold coprimeCmd
  split <;> simp [complete, OutcomeLegal, usesSymbols, maxS64]

theorem modpowCmd_legal (n : Nat) (l : Latch) : OutcomeLegal n .modpow l (modpowCmd l) := by
  unfold modpowCmd
  dsimp only
  split
  · simp [raise, OutcomeLegal, codesOf, stagesOf]
  · split
    · simp [raise, OutcomeLegal, codesOf, stagesOf]
    · next hm _ =>
      have hr := modpow_range (m := opS l 2) (by omega) (opS l 0) (opS l 1).toNat
      have := opS_range l 2
      simp [complete, OutcomeLegal, usesSymbols]; omega

theorem modinvCmd_legal (n : Nat) (l : Latch) : OutcomeLegal n .modinv l (modinvCmd l) := by
  unfold modinvCmd
  dsimp only
  split
  · simp [raise, OutcomeLegal, codesOf, stagesOf]
  · split
    · simp [raise, OutcomeLegal, codesOf, stagesOf]
    · cases hd : extInverse (opS l 0) (opS l 1) with
      | none => simp [raise, OutcomeLegal, codesOf, stagesOf]
      | some d =>
        have hr := extInverse_some (by omega) hd
        have := opS_range l 1
        simp [complete, OutcomeLegal, usesSymbols]; omega

theorem chooseeCmd_legal (n : Nat) (l : Latch) : OutcomeLegal n .choosee l (chooseeCmd l) := by
  have h := chooseE_spec (opS l 0) (budgetOf l)
  have := opS_range l 0
  unfold maxS64 at this
  unfold chooseeCmd
  generalize chooseE (opS l 0) (budgetOf l) = r at h
  match r, h with
  | .found v k, ⟨h1, h2, _, h4, _⟩ =>
    simp only [OutcomeLegal, usesSymbols, List.mem_singleton, forall_eq, maxS64]
    exact ⟨by omega, by omega, by simp⟩
  | .exhausted k, ⟨h1, h2⟩ => simp [OutcomeLegal, codesOf, stagesOf]; omega
  | .overBudget k, ⟨h1, _, h3, _⟩ => simp [OutcomeLegal, codesOf, stagesOf]; omega

/-- Everything `key_base` can answer (R141). -/
theorem keyBase_spec (p q : Int) :
    match keyBase p q with
    | .error code => (code = .domain ∧ (p ≤ 0 ∨ q ≤ 0)) ∨ (code = .range ∧ 0 < p ∧ 0 < q ∧ p * q > maxS64)
    | .ok n phi => 0 < p ∧ 0 < q ∧ n = p * q ∧ n ≤ maxS64 ∧ phi = (p - 1) * (q - 1) ∧ 0 ≤ phi ∧ phi < n := by
  unfold keyBase
  by_cases h : p ≤ 0 ∨ q ≤ 0
  · rw [if_pos h]; exact .inl ⟨rfl, h⟩
  · rw [if_neg h]
    push Not at h
    by_cases h' : p * q > maxS64
    · rw [if_pos h']; exact .inr ⟨rfl, h.1, h.2, h'⟩
    · rw [if_neg h']
      exact ⟨h.1, h.2, rfl, by omega, rfl, mul_nonneg (by omega) (by omega), by nlinarith⟩

theorem keygenCmd_legal (n : Nat) (l : Latch) : OutcomeLegal n .keygen l (keygenCmd l) := by
  have hb := keyBase_spec (opS l 0) (opS l 1)
  unfold keygenCmd
  dsimp only
  generalize keyBase (opS l 0) (opS l 1) = r at hb
  match r, hb with
  | .error code, h => rcases h with ⟨rfl, _⟩ | ⟨rfl, _⟩ <;> simp [raise, OutcomeLegal, codesOf, stagesOf]
  | .ok m phi, ⟨hp, hq, _, hm, _, hphi0, hphi⟩ =>
    simp only
    split
    · simp [raise, OutcomeLegal, codesOf, stagesOf]
    · next he =>
      push Not at he
      split
      · simp [raise, OutcomeLegal, codesOf, stagesOf]
      · next hg =>
        push Not at hg
        rw [euclid_eq_gcd] at hg
        obtain ⟨d, hd⟩ := extInverse_of_coprime (by omega) hg
        have hr := extInverse_some (by omega) hd
        have h0 := opS_range l 0
        have h1 := opS_range l 1
        simp only [hd, complete, OutcomeLegal, usesSymbols, List.mem_cons, List.not_mem_nil, or_false,
          forall_eq_or_imp, forall_eq]
        simp only [true_or, and_true]
        omega

theorem keygenAutoCmd_legal (n : Nat) (l : Latch) : OutcomeLegal n .keygenAuto l (keygenAutoCmd l) := by
  have hb := keyBase_spec (opS l 0) (opS l 1)
  unfold keygenAutoCmd
  dsimp only
  generalize keyBase (opS l 0) (opS l 1) = r at hb
  match r, hb with
  | .error code, h => rcases h with ⟨rfl, _⟩ | ⟨rfl, _⟩ <;> simp [raise, OutcomeLegal, codesOf, stagesOf]
  | .ok m phi, ⟨hp, hq, _, hm, _, hphi0, hphi⟩ =>
    have hs := chooseE_spec phi (budgetOf l)
    simp only
    generalize chooseE phi (budgetOf l) = r at hs
    unfold maxS64 at hm
    match r, hs with
    | .exhausted k, ⟨h1, h2⟩ => simp [OutcomeLegal, codesOf, stagesOf]; omega
    | .overBudget k, ⟨h1, _, h3, _⟩ => simp [OutcomeLegal, codesOf, stagesOf]; omega
    | .found v k, ⟨h1, h2, hg, h4, _⟩ =>
      obtain ⟨d, hd⟩ := extInverse_of_coprime (by omega) hg
      have hr := extInverse_some (by omega) hd
      have h0 := opS_range l 0
      have h1 := opS_range l 1
      simp only [hd, OutcomeLegal, usesSymbols, List.mem_cons, List.not_mem_nil, or_false,
        forall_eq_or_imp, forall_eq]
      unfold maxS64 at *
      simp only [true_or, and_true]
      omega

/-- The cipher map's outcome, with the results and count it is given. -/
theorem cipherMap_legal (n : Nat) (i : Instr) (l : Latch) {k : Nat} {m : Int} {st : Stage} {rs : List Int}
    {it : Nat} (hi : usesSymbols i = true) (hr : rangeOk n l = true)
    (hcode : ErrCode.symbolOutOfRange ∈ codesOf i) (hst : st ∈ stagesOf i)
    (hrs : ∀ r ∈ rs, 0 ≤ r ∧ r ≤ maxS64) (hit : it < 2 ^ 64) :
    OutcomeLegal n i l (cipherMap k m l st rs it) := by
  by_cases hw : SourceWritten l
  · obtain ⟨ss, hl, _, ⟨j, _, h⟩ | ⟨_, h⟩⟩ := cipherMap_written (k := k) (n := m) (st := st) (rs := rs)
      (it := it) hw
    · rw [h]; exact ⟨hcode, by simp, hst, fun _ => rfl, hit⟩
    · rw [h]; exact ⟨hrs, hit, .inr ⟨hi, hr, _, by simp [hl], rfl⟩⟩
  · rw [cipherMap_uninit.mpr hw]; exact ⟨hi, hr, hw⟩

theorem cipherCmd_legal (n : Nat) (i : Instr) (l : Latch) (hi : i = .encrypt ∨ i = .decrypt) :
    OutcomeLegal n i l (cipherCmd n l) := by
  have h1 : ErrCode.domain ∈ codesOf i ∧ ErrCode.lengthExceeded ∈ codesOf i ∧
      ErrCode.symbolOutOfRange ∈ codesOf i ∧ Stage.none ∈ stagesOf i ∧ usesSymbols i = true := by
    rcases hi with rfl | rfl <;> decide
  unfold cipherCmd
  dsimp only
  split
  · exact ⟨h1.1, by simp, h1.2.2.2.1, by simp, by norm_num⟩
  · split
    · exact ⟨h1.1, by simp, h1.2.2.2.1, by simp, by norm_num⟩
    · split
      · exact ⟨h1.2.1, by simp, h1.2.2.2.1, by simp, by norm_num⟩
      · next hr =>
        exact cipherMap_legal n i l h1.2.2.2.2 (by simpa using hr) h1.2.2.1 h1.2.2.2.1 (by simp) (by norm_num)

theorem factorizeCmd_legal (n : Nat) (l : Latch) : OutcomeLegal n .factorize l (factorizeCmd l) := by
  have h := factorScan_spec (opS l 0) (budgetOf l)
  have hop := opS_range l 0
  unfold maxS64 at hop
  unfold factorizeCmd
  dsimp only
  generalize factorScan (opS l 0) (budgetOf l) = r at h
  match r, h with
  | .found p k, ⟨h1, h2, _, h4, _⟩ =>
    have hq0 : 0 ≤ opS l 0 / p := Int.ediv_nonneg (by omega) (by omega)
    have hq : opS l 0 / p ≤ opS l 0 := Int.ediv_le_self _ (by omega)
    simp only [OutcomeLegal, usesSymbols, List.mem_cons, List.not_mem_nil, or_false, forall_eq_or_imp,
      forall_eq, maxS64, true_or, and_true]
    omega
  | .exhausted k, ⟨h1, _⟩ => simp [OutcomeLegal, codesOf, stagesOf]; omega
  | .overBudget k, ⟨h1, _, h3, _⟩ => simp [OutcomeLegal, codesOf, stagesOf]; omega

theorem totientCmd_legal (n : Nat) (l : Latch) : OutcomeLegal n .totient l (totientCmd l) := by
  unfold totientCmd
  dsimp only
  split
  · simp [raise, OutcomeLegal, codesOf, stagesOf]
  · next h =>
    push Not at h
    split
    · simp [raise, OutcomeLegal, codesOf, stagesOf]
    · next h' =>
      have : 0 ≤ totient (opS l 0) (opS l 1) := mul_nonneg (by omega) (by omega)
      simp [complete, OutcomeLegal, usesSymbols]; omega

theorem recoverdCmd_legal (n : Nat) (l : Latch) : OutcomeLegal n .recoverd l (recoverdCmd l) := by
  have h := recoverScan_spec (opS l 0) (opS l 1) (budgetOf l)
  have hop := opS_range l 1
  unfold maxS64 at hop
  unfold recoverdCmd
  generalize recoverScan (opS l 0) (opS l 1) (budgetOf l) = r at h
  match r, h with
  | .found d k, ⟨h1, h2, _, h4, _⟩ =>
    simp only [OutcomeLegal, usesSymbols, List.mem_singleton, forall_eq, maxS64, true_or, and_true]
    omega
  | .exhausted k, ⟨h1, _⟩ => simp [OutcomeLegal, codesOf, stagesOf]; omega
  | .overBudget k, ⟨h1, _, h3, _⟩ => simp [OutcomeLegal, codesOf, stagesOf]; omega

/-- The totient of the factors found is below `n` (43_cracker.md R186: "1 <= phi < n"). -/
theorem totient_lt {n p : Int} (hp : 2 ≤ p) (hpn : p < n) (hd : p ∣ n) :
    1 ≤ totient p (n / p) ∧ totient p (n / p) < n ∧ 2 ≤ n / p := by
  obtain ⟨q, rfl⟩ := hd
  have hq : 2 ≤ q := by
    by_contra h
    have : q ≤ 1 := by omega
    nlinarith
  rw [Int.mul_ediv_cancel_left _ (by omega)]
  unfold totient
  refine ⟨?_, by nlinarith, hq⟩
  nlinarith

theorem crackCmd_legal (n : Nat) (l : Latch) : OutcomeLegal n .crack l (crackCmd n l) := by
  unfold crackCmd
  dsimp only
  split
  · simp [OutcomeLegal, codesOf, stagesOf]
  · next hrange =>
    have hf := factorScan_spec (opS l 1) (budgetOf l)
    have hop := opS_range l 1
    unfold maxS64 at hop
    generalize factorScan (opS l 1) (budgetOf l) = r at hf
    match r, hf with
    | .exhausted k, ⟨h1, _⟩ => simp [OutcomeLegal, codesOf, stagesOf]; omega
    | .overBudget k, ⟨h1, _, h3, _⟩ => simp [OutcomeLegal, codesOf, stagesOf]; omega
    | .found p k, ⟨h1, h2, hdvd, h4, _⟩ =>
      obtain ⟨ht1, ht2, hq2⟩ := totient_lt h1 h2 hdvd
      have hq : opS l 1 / p ≤ opS l 1 := Int.ediv_le_self _ (by omega)
      have hs := recoverScan_spec (opS l 0) (totient p (opS l 1 / p)) (budgetOf l)
      simp only
      generalize recoverScan (opS l 0) (totient p (opS l 1 / p)) (budgetOf l) = r at hs
      match r, hs with
      | .exhausted j, ⟨g1, _⟩ => simp [OutcomeLegal, codesOf, stagesOf]; omega
      | .overBudget j, ⟨g1, _, g3, _⟩ => simp [OutcomeLegal, codesOf, stagesOf]; omega
      | .found d j, ⟨g1, g2, _, g4, _⟩ =>
        refine cipherMap_legal n .crack l rfl (by simpa using hrange) (by decide) (by decide) ?_ (by omega)
        simp only [List.mem_cons, List.not_mem_nil, or_false, forall_eq_or_imp, forall_eq, maxS64]
        omega

/-- Every outcome of every command is legal. -/
theorem outcome_legal (n : Nat) (i : Instr) (l : Latch) : OutcomeLegal n i l (outcomeOf n i l) := by
  cases i with
  | gcd => exact gcdCmd_legal n l
  | coprime => exact coprimeCmd_legal n l
  | modpow => exact modpowCmd_legal n l
  | modinv => exact modinvCmd_legal n l
  | choosee => exact chooseeCmd_legal n l
  | keygen => exact keygenCmd_legal n l
  | keygenAuto => exact keygenAutoCmd_legal n l
  | encrypt => exact cipherCmd_legal n .encrypt l (.inl rfl)
  | decrypt => exact cipherCmd_legal n .decrypt l (.inr rfl)
  | factorize => exact factorizeCmd_legal n l
  | totient => exact totientCmd_legal n l
  | recoverd => exact recoverdCmd_legal n l
  | crack => exact crackCmd_legal n l

/-- Everything `exec` can do: a success, an error, or the model-only fault, each with a legal outcome. -/
theorem exec_cases (i : Instr) (s : State) :
    (∃ rs ws k, OutcomeLegal s.build.memWords i s.inputs (.ok rs ws k) ∧
      exec i s = .next (okState s (Bank.ofResults rs) (s.mem.commit ws) k)) ∨
    (∃ code stage info k, OutcomeLegal s.build.memWords i s.inputs (.err code stage info k) ∧
      exec i s = .next (errState s code stage info k)) ∨
    (OutcomeLegal s.build.memWords i s.inputs .uninitSymbolRead ∧ exec i s = .fault .uninitSymbolRead) := by
  have hl := outcome_legal s.build.memWords i s.inputs
  rw [exec_eq_commit]
  rcases commit_cases s (outcomeOf s.build.memWords i s.inputs) with
    ⟨rs, ws, k, ho, h⟩ | ⟨code, stage, info, k, ho, h⟩ | ⟨ho, h⟩
  · exact .inl ⟨rs, ws, k, ho ▸ hl, h⟩
  · exact .inr (.inl ⟨code, stage, info, k, ho ▸ hl, h⟩)
  · exact .inr (.inr ⟨ho ▸ hl, h⟩)

end Sys2Proof.Machine
end

