-- ==== Sys2Proof/Laws/PerInstr.lean ====
section
/-! SUPPORT. Statements made per command, one lemma per constructor. -/

namespace Sys2Proof.Laws.RoundTrip

/-- A command is well-formed, its word is a legal command word, and decoding that word, alone or as
bytes, gives the command back (30_encoding.md R91). -/
def Statement (i : Instr) : Prop :=
  i.wellFormed = true ∧ commandWordWellFormed (encode i) = true ∧ decode (encode i) = .command i ∧
    decodeTableWord 64 (encode i).toNat = some i

theorem gcd : Statement .gcd := by unfold Statement; decide

theorem coprime : Statement .coprime := by unfold Statement; decide

theorem modpow : Statement .modpow := by unfold Statement; decide

theorem modinv : Statement .modinv := by unfold Statement; decide

theorem choosee : Statement .choosee := by unfold Statement; decide

theorem keygen : Statement .keygen := by unfold Statement; decide

theorem keygenAuto : Statement .keygenAuto := by unfold Statement; decide

theorem encrypt : Statement .encrypt := by unfold Statement; decide

theorem decrypt : Statement .decrypt := by unfold Statement; decide

theorem factorize : Statement .factorize := by unfold Statement; decide

theorem totient : Statement .totient := by unfold Statement; decide

theorem recoverd : Statement .recoverd := by unfold Statement; decide

theorem crack : Statement .crack := by unfold Statement; decide

end Sys2Proof.Laws.RoundTrip
end

