-- ==== Sys2Proof/Laws/Step.lean ====
section
/-! SUPPORT. Everything one step can do (70_reset_and_hazards.md R250). -/

namespace Sys2Proof.Machine

/-- BUSY is the phase (10_state.md R38). -/
theorem busy_iff (s : State) : s.busy = true ↔ ∃ l, s.engine = .busy l := by
  unfold State.busy
  split <;> simp_all

theorem not_busy_iff (s : State) : s.busy = false ↔ s.engine = .idle := by
  unfold State.busy
  split <;> simp_all

/-- A host turn does nothing, or makes one access and moves on in the program. -/
theorem hostTurn_cases (s : State) :
    (s.program = [] ∧ hostTurn s = s) ∨
    (∃ op rest p, s.program = op :: rest ∧
      hostTurn s = { busAccess s (hostOpAccess s.build op) with program := p }) := by
  unfold hostTurn
  split
  · next h => exact .inl ⟨h, rfl⟩
  · next op rest h => exact .inr ⟨op, rest, _, h, rfl⟩

/-- An engine turn does nothing while IDLE; while BUSY it runs the decoded command, or completes an
illegal word. -/
theorem engineTurn_cases (s : State) :
    (s.engine = .idle ∧ engineTurn s = .next s) ∨
    (∃ l i, s.engine = .busy l ∧ decode l.cmd = .command i ∧ engineTurn s = exec i s) ∨
    (∃ l why, s.engine = .busy l ∧ decode l.cmd = .illegal why ∧
      engineTurn s = .next (errState s .illegalCmd .none 0 0)) := by
  unfold engineTurn
  split
  · next h => exact .inl ⟨h, rfl⟩
  · next l h =>
    split
    · next i hd => exact .inr (.inl ⟨l, i, h, hd, rfl⟩)
    · next why hd => exact .inr (.inr ⟨l, why, h, hd, rfl⟩)

/-- A step is one agent's turn, with the schedule moved on. -/
theorem step_cases (s : State) :
    ∃ sch, step s = .next (hostTurn { s with schedule := sch }) ∨
      step s = engineTurn { s with schedule := sch } ∨
      step s = .next (powerOnReset { s with schedule := sch }) := by
  refine ⟨(nextTurn s).2, ?_⟩
  unfold step stepAgents turnOf
  cases (nextTurn s).1 with
  | host => exact .inl rfl
  | engine => exact .inr (.inl rfl)
  | platform => exact .inr (.inr rfl)

/-- When the engine has the turn and is BUSY, the step runs the decoded command. -/
theorem step_engine {s : State} {l : Latch} {i : Instr} (hb : s.engine = .busy l)
    (hd : decode l.cmd = .command i) (ht : (nextTurn s).1 = .engine) :
    step s = exec i { s with schedule := (nextTurn s).2 } := by
  unfold step stepAgents turnOf
  rw [ht]
  simp only [engineTurn, hb, hd]

/-- A run whose first step answers a next state goes on from there. -/
theorem run_next {s t : State} (k : Nat) (h : step s = .next t) :
    Host.Core.run Sys2Proof.core (k + 1) s = Host.Core.run Sys2Proof.core k t := by
  have h : Sys2Proof.core.step s = .next t := h
  simp only [Host.Core.run, h]

/-- A run whose first step faults stops there. -/
theorem run_fault {s : State} {f : Fault} (k : Nat) (h : step s = .fault f) :
    Host.Core.run Sys2Proof.core (k + 1) s = .fault f := by
  have h : Sys2Proof.core.step s = .fault f := h
  simp only [Host.Core.run, h]

end Sys2Proof.Machine
end

