-- ==== Sys2Proof/Tests/Slice0.lean ====
section
/-! SUPPORT. Tests. Expected values are those of spec/95_test_vectors.md (its sections L1, L2 and L3) or
of the rule a comment names; none was taken from the model. The witnesses at the end meet the hypotheses
of the obligations, clause by clause. -/

namespace Sys2Proof.Tests

open Sys2Proof Sys2Proof.Machine

/-! ### Small states -/

/-- Operand registers `OP0` to `OP4`, the others 0. -/
def ops5 (a b c d e : Int) : Bank := ⟨enc64 a, enc64 b, enc64 c, enc64 d, enc64 e, 0, 0, 0⟩

/-- Symbol words from index 0 on. -/
def symbols (vs : List Int) : Memory := Memory.commit [] (writesAt 0 vs)

/-- The state after reset with these operands, budget and symbols. -/
def prepared (ops : Bank) (budget : Word) (syms : List Int) : State :=
  { State.reset with ops := ops, budget := budget, mem := symbols syms }

/-- The same with the command just accepted. -/
def started (i : Instr) (ops : Bank) (budget : Word) (syms : List Int) : State :=
  startCommand (prepared ops budget syms) (encode i)

/-- The next state of an outcome; the state after reset where there is none. -/
def after (o : Host.Outcome State Fault Refusal) : State :=
  match o with
  | .next t => t
  | .fault _ | .refused _ => State.reset

/-- What a command's completion shows: `RES0`, `RES1`, STATUS, ITERS, ERRINFO. -/
structure Seen where
  res0 : Int
  res1 : Int
  status : Nat
  iters : Nat
  info : Nat
  deriving DecidableEq, Repr

def seenOf (t : State) : Seen :=
  ⟨s64 t.res.r0, s64 t.res.r1, (statusWord t).toNat, t.iters.toNat, t.errInfo.toNat⟩

/-- One step from a state in which the command has just been accepted. -/
def seen (i : Instr) (ops : Bank) (budget : Word) (syms : List Int) : Seen :=
  seenOf (after (step (started i ops budget syms)))

/-- The symbol words `at, at + 1, …` after one step. -/
def symsAfter (i : Instr) (ops : Bank) (syms : List Int) (at_ n : Nat) : List (Option Word) :=
  let t := after (step (started i ops 0 syms))
  (List.range n).map (fun j => t.mem.loadSym (at_ + j))

/-! ### WellFormed: an ill-formed term for each check -/

theorem test_wellFormed_instr : Instr.gcd.wellFormed = true ∧ Instr.crack.wellFormed = true := by decide
theorem test_wellFormed_refuses_reserved_bit :
    rsvdZero 0x103 = false ∧ commandWordWellFormed 0x103 = false ∧ rsvdZero 0x03 = true := by decide
theorem test_wellFormed_refuses_unassigned_opcode :
    opcodeAssigned 0x06 = false ∧ commandWordWellFormed 0x06 = false ∧ commandWordWellFormed 0x33 = true := by decide
theorem test_wellFormed_refuses_host_value :
    hostValueWellFormed (2 ^ 64) = false ∧ hostValueWellFormed (-2 ^ 63 - 1) = false ∧
      hostValueWellFormed (2 ^ 64 - 1) = true ∧ hostValueWellFormed (-2 ^ 63) = true := by decide
theorem test_wellFormed_refuses_symbol_index :
    hostOpWellFormed ⟨1024, 0⟩ (.wrm 1024 0) = false ∧ hostOpWellFormed ⟨1024, 0⟩ (.rdm 1024) = false ∧
      hostOpWellFormed ⟨1024, 0⟩ (.rdm 1023) = true ∧
      hostOpWellFormed ⟨1024, 0⟩ (.wr (.op 0) (2 ^ 64)) = false := by decide
theorem test_wellFormed_refuses_build :
    Build.legal ⟨0, 0⟩ = false ∧ Build.legal ⟨7681, 0⟩ = false ∧ Build.legal ⟨1, 1⟩ = false ∧
      Build.legal ⟨7680, 65536⟩ = true := by decide

/-! ### Decoding: words written out from 30_encoding.md R90 to R94 -/

theorem test_decode_modular_arithmetic :
    decode 0b0000000000000000000000000000000000000000000000000000000000000001 = .command .gcd ∧
    decode 0b0000000000000000000000000000000000000000000000000000000000000010 = .command .coprime ∧
    decode 0b0000000000000000000000000000000000000000000000000000000000000011 = .command .modpow ∧
    decode 0b0000000000000000000000000000000000000000000000000000000000000100 = .command .modinv ∧
    decode 0b0000000000000000000000000000000000000000000000000000000000000101 = .command .choosee := by decide
theorem test_decode_key_generator :
    decode 0b0000000000000000000000000000000000000000000000000000000000010000 = .command .keygen ∧
    decode 0b0000000000000000000000000000000000000000000000000000000000010001 = .command .keygenAuto := by decide
theorem test_decode_cipher :
    decode 0b0000000000000000000000000000000000000000000000000000000000100000 = .command .encrypt ∧
    decode 0b0000000000000000000000000000000000000000000000000000000000100001 = .command .decrypt := by decide
theorem test_decode_cracker :
    decode 0b0000000000000000000000000000000000000000000000000000000000110000 = .command .factorize ∧
    decode 0b0000000000000000000000000000000000000000000000000000000000110001 = .command .totient ∧
    decode 0b0000000000000000000000000000000000000000000000000000000000110010 = .command .recoverd ∧
    decode 0b0000000000000000000000000000000000000000000000000000000000110011 = .command .crack := by decide
/-- The illegal words of L2, "Command decoding". -/
theorem test_decode_illegal :
    decode 0x103 = .illegal .reservedBits ∧ decode 0x8000000000000001 = .illegal .reservedBits ∧
    decode 0x00 = .illegal .unassignedOpcode ∧ decode 0x06 = .illegal .unassignedOpcode ∧
    decode 0x12 = .illegal .unassignedOpcode ∧ decode 0x22 = .illegal .unassignedOpcode ∧
    decode 0x34 = .illegal .unassignedOpcode ∧ decode 0xFF = .illegal .unassignedOpcode := by decide
/-- The bytes of `CMD MODPOW`, least significant first (20_memory.md R64), with a word after them. -/
theorem test_decode_bytes :
    decodeBytes [0x03, 0, 0, 0, 0, 0, 0, 0, 0xAA] = (.command .modpow, [0xAA]) ∧
    decodeBytes [0, 0, 0, 0, 0, 0, 0, 0x03] = (.illegal .reservedBits, []) ∧
    decodeBytes [0x03, 0, 0, 0, 0, 0, 0] = (.illegal .truncated, [0x03, 0, 0, 0, 0, 0, 0]) := by decide
theorem test_decodeTableWord :
    decodeTableWord 64 0x20 = some .encrypt ∧ decodeTableWord 64 0x103 = none ∧
    decodeTableWord 8 0x33 = some .crack := by decide

/-! ### One step of each command (L2) -/

theorem test_gcd_most_negative : seen .gcd (ops5 (-2 ^ 63) 6 0 0 0) 0 [] = ⟨2, 0, 0x2, 0, 0⟩ := by decide
theorem test_gcd_range : seen .gcd (ops5 (-2 ^ 63) 0 0 0 0) 0 [] = ⟨0, 0, 0xA0A, 0, 0⟩ := by decide
theorem test_coprime_true : seen .coprime (ops5 17 3120 0 0 0) 0 [] = ⟨1, 0, 0x2, 0, 0⟩ := by decide
theorem test_coprime_never_range : seen .coprime (ops5 (-2 ^ 63) 0 0 0 0) 0 [] = ⟨0, 0, 0x2, 0, 0⟩ := by decide
theorem test_modpow_negative_base : seen .modpow (ops5 (-2) 3 5 0 0) 0 [] = ⟨2, 0, 0x2, 0, 0⟩ := by decide
theorem test_modpow_largest :
    seen .modpow (ops5 3 (2 ^ 63 - 1) (2 ^ 63 - 1) 0 0) 0 [] = ⟨6348555216811415212, 0, 0x2, 0, 0⟩ := by
  decide +kernel
theorem test_modinv_negative_e : seen .modinv (ops5 (-3) 11 0 0 0) 0 [] = ⟨7, 0, 0x2, 0, 0⟩ := by decide
theorem test_modinv_phi_one : seen .modinv (ops5 5 1 0 0 0) 0 [] = ⟨0, 0, 0x10A, 0, 0⟩ := by decide
theorem test_choosee_at_budget : seen .choosee (ops5 3120 0 0 0 0) 6 [] = ⟨7, 0, 0x2, 6, 0⟩ := by decide
theorem test_choosee_over_budget : seen .choosee (ops5 3120 0 0 0 0) 5 [] = ⟨0, 0, 0x80A, 5, 0⟩ := by decide
theorem test_keygen_classic :
    (after (step (started .keygen (ops5 61 53 17 0 0) 0 []))).res = ⟨61, 53, 3233, 3120, 17, 2753, 0, 0⟩ := by
  decide
theorem test_keygen_exponent_too_large :
    seen .keygen (ops5 61 53 3121 0 0) 0 [] = ⟨0, 0, 0x30A, 0, 0⟩ := by decide
theorem test_keygenAuto :
    (after (step (started .keygenAuto (ops5 2 5 0 0 0) 0 []))).res = ⟨2, 5, 10, 4, 3, 3, 0, 0⟩ ∧
    seen .keygenAuto (ops5 2 5 0 0 0) 0 [] = ⟨2, 5, 0x2, 2, 0⟩ := by decide
theorem test_keygenAuto_budget : seen .keygenAuto (ops5 61 53 0 0 0) 5 [] = ⟨0, 0, 0x80A, 5, 0⟩ := by decide
/-- Partial overlap reads the snapshot. -/
theorem test_encrypt_overlap :
    symsAfter .encrypt (ops5 17 3233 0 1 2) [72, 73] 0 3 = [some 72, some 3000, some 1486] := by decide +kernel
theorem test_encrypt_lowest_bad_index :
    seen .encrypt (ops5 17 3233 0 2 2) 0 [65, 3233] = ⟨0, 0, 0x60A, 0, 1⟩ ∧
    symsAfter .encrypt (ops5 17 3233 0 2 2) [65, 3233] 0 3 = [some 65, some 3233, none] := by decide +kernel
theorem test_decrypt :
    symsAfter .decrypt (ops5 2753 3233 0 2 2) [3000, 1486] 2 2 = [some 72, some 73] := by decide +kernel
theorem test_decrypt_length :
    seen .decrypt (ops5 17 3233 0 1023 2) 0 [] = ⟨0, 0, 0x70A, 0, 0⟩ := by decide
theorem test_factorize_composite_cofactor :
    seen .factorize (ops5 12 0 0 0 0) 0 [] = ⟨2, 6, 0x2, 1, 0⟩ := by decide
theorem test_factorize_natural_end_wins :
    seen .factorize (ops5 17 0 0 0 0) 15 [] = ⟨0, 0, 0x40A, 15, 0⟩ ∧
    seen .factorize (ops5 17 0 0 0 0) 14 [] = ⟨0, 0, 0x80A, 14, 0⟩ := by decide
theorem test_totient_largest :
    seen .totient (ops5 (2 ^ 63 - 1) 2 0 0 0) 0 [] = ⟨9223372036854775806, 0, 0x2, 0, 0⟩ := by decide
theorem test_totient_range : seen .totient (ops5 (2 ^ 63 - 1) 3 0 0 0) 0 [] = ⟨0, 0, 0xA0A, 0, 0⟩ := by decide
theorem test_recoverd_negative_e : seen .recoverd (ops5 (-3) 11 0 0 0) 0 [] = ⟨7, 0, 0x2, 7, 0⟩ := by decide
theorem test_recoverd_not_coprime : seen .recoverd (ops5 2 4 0 0 0) 0 [] = ⟨0, 0, 0x50A, 3, 0⟩ := by decide
theorem test_crack :
    (after (step (started .crack (ops5 5 21 0 4 4) 0 [11, 16, 19, 20]))).res = ⟨3, 7, 12, 5, 0, 0, 0, 0⟩ ∧
    seen .crack (ops5 5 21 0 4 4) 0 [11, 16, 19, 20] = ⟨3, 7, 0x2, 7, 0⟩ ∧
    symsAfter .crack (ops5 5 21 0 4 4) [11, 16, 19, 20] 4 4 = [some 2, some 4, some 10, some 20] := by
  decide +kernel
theorem test_crack_stage_of_failure :
    seen .crack (ops5 2 15 0 0 0) 0 [] = ⟨0, 0, 0x4050A, 9, 0⟩ ∧
    seen .crack (ops5 17 17 0 0 0) 0 [] = ⟨0, 0, 0x2040A, 15, 0⟩ ∧
    seen .crack (ops5 17 3233 1023 0 2) 0 [] = ⟨0, 0, 0x1070A, 0, 0⟩ := by decide

/-! ### The illegal word, the bus, the resets and the interrupt -/

/-- L2: a CMD write of `0x103` completes with STATUS `0xB0A` and CMD reads `0x103`. -/
theorem test_illegal_word :
    statusWord (after (step (startCommand State.reset 0x103))) = 0xB0A ∧
    readRegister (after (step (startCommand State.reset 0x103))) .cmd = 0x103 := by decide

/-- A step from reset with a word placed for fetch runs it: MODPOW of zeros fails with E_DOMAIN. -/
theorem test_withFetchWord :
    statusWord (after (step (State.reset.withFetchWord 64 0x03))) = 0x90A ∧
    statusWord (after (step (State.reset.withFetchWord 64 0x02))) = 0x2 := by decide

/-- 20_memory.md R64: byte lane `k` carries bits `[8k+7:8k]`. -/
theorem test_symbol_bytes_little_endian :
    Memory.storeSym [] 1 0x1122334455667788 =
      [(0x1008, 0x88), (0x1009, 0x77), (0x100A, 0x66), (0x100B, 0x55), (0x100C, 0x44), (0x100D, 0x33),
       (0x100E, 0x22), (0x100F, 0x11)] := by decide

/-- P4, first row of its table and its end: a write while BUSY is dropped and sets WERR. -/
theorem test_write_while_busy :
    let s := startCommand (prepared (ops5 999983 0 0 0 0) 0 []) 0x30
    let t := busAccess s ⟨0x40, 8, .write 15⟩
    statusWord t = 0x5 ∧ t.resp = some .writeOk ∧ readRegister t (.op 0) = 0xF422F ∧
      statusWord (busAccess t ⟨0x10, 8, .write 2⟩) = 0x0 := by decide

/-- 10_state.md R23 and 20_memory.md R65: the ends of the map and the reserved holes. -/
theorem test_register_map :
    decodeOffset 1024 0x0078 = some (.reg (.op 7)) ∧ decodeOffset 1024 0x00B8 = some (.reg (.res 7)) ∧
    decodeOffset 1024 0x00C0 = none ∧ decodeOffset 1024 0x0FF8 = none ∧
    decodeOffset 1024 0x1000 = some (.sym 0) ∧ decodeOffset 1024 0x2FF8 = some (.sym 1023) ∧
    decodeOffset 1024 0x3000 = none ∧ decodeOffset 1024 0x0044 = none ∧
    decodeOffset 7680 0xFFF8 = some (.sym 7679) := by decide

/-- The value an access returned. -/
def dataOf (s : State) : Option Word := s.resp.bind Response.data

/-- R65: a 32-bit read, and a read of a reserved offset, return 0 and set WERR. -/
theorem test_error_response :
    dataOf (busAccess State.reset ⟨0x0000, 4, .read⟩) = some 0 ∧
    (busAccess State.reset ⟨0x0000, 4, .read⟩).werr = true ∧
    (busAccess State.reset ⟨0x00C0, 8, .write 1⟩) = { State.reset with werr := true, resp := some .writeError } ∧
    dataOf (busAccess State.reset ⟨0x0000, 8, .read⟩) = some 0x53584E5400010007 := by decide

/-- P2: with IE set the completion raises irq, and ACK lowers it. -/
theorem test_interrupt :
    let t := after (step { startCommand (prepared (ops5 48 18 0 0 0) 0 []) 0x01 with ie := true })
    t.irq = true ∧ (busAccess t ⟨0x18, 8, .write 6⟩).irq = false := by decide

/-- P1's first line: `SETOPS 61, …` writes `0x3D` at `0x0040`, one access a step; `RUN` then starts and
polls while BUSY. -/
theorem test_host_program :
    let s := { State.reset with program := asmSetops [61] ++ asmRun .keygen }
    let t := after (step s)
    readRegister t (.op 0) = 0x3D ∧ t.program = [.wr .cmd 0x10, .wait] ∧
      (hostTurn (after (step t))).program = [.wait] ∧ dataOf (hostTurn (after (step t))) = some 1 := by decide

/-- 70_reset_and_hazards.md R240 and R241: power-on clears the written marks, soft reset keeps them. -/
theorem test_resets :
    let s := { prepared (ops5 1 2 3 4 5) 9 [72] with schedule := [.platform] }
    (after (step s)).mem.loadSym 0 = none ∧ (softReset s).mem.loadSym 0 = some 72 ∧
      (softReset s).budget = 0 ∧ (after (step s)).ops = Bank.zero := by decide

/-- 60_exceptions.md R226: the model fault on an unwritten source word, after the bounds check. -/
theorem test_uninit_symbol :
    (step (started .encrypt (ops5 17 3233 0 2 2) 0 [72]) matches .fault .uninitSymbolRead) = true ∧
    seen .encrypt (ops5 17 3233 1024 1024 0) 0 [] = ⟨0, 0, 0x2, 0, 0⟩ := by decide

/-! ### Witnesses: states that meet the hypotheses of the obligations -/

theorem test_witness_PowerOnResetClearsEverything :
    { prepared (ops5 1 2 3 4 5) 9 [72] with schedule := [.platform] }.schedule = .platform :: [] := rfl

theorem test_witness_IdAndCapFields : State.reset.build.memWords < 2 ^ 32 := by decide

theorem test_witness_DecodeExactlyTheTable :
    let s := startCommand State.reset 0x34
    (∃ l, s.engine = .busy l ∧ l.cmd = 0x34) ∧ (∀ i, (0x34 : Word) ≠ (opcode i).zeroExtend 64) :=
  ⟨⟨_, rfl, rfl⟩, fun i => by cases i <;> decide⟩

theorem test_witness_DecodeEncodeAgreeOnBytes :
    Instr.crack.wellFormed = true ∧ decodeBytes [0x33, 0, 0, 0, 0, 0, 0, 0, 0x55] = (.command .crack, [0x55]) := by
  decide

/-- The engine has the turn by the schedule in the first state and by its end in the second. -/
theorem test_witness_StepRunsDecodedCommand :
    let s := { started .totient (ops5 61 53 0 0 0) 0 [] with schedule := [.engine, .host] }
    let t := started .totient (ops5 61 53 0 0 0) 0 []
    (∃ l, s.engine = .busy l ∧ (decodeBytes (leBytes 8 l.cmd.toNat)).1 = .command .totient) ∧
      Instr.totient.wellFormed = true ∧ s.schedule = .engine :: [.host] ∧
      (∃ l, t.engine = .busy l ∧ (decodeBytes (leBytes 8 l.cmd.toNat)).1 = .command .totient) ∧
      t.schedule = [] :=
  ⟨⟨_, rfl, by decide⟩, by decide, rfl, ⟨_, rfl, by decide⟩, rfl⟩

/-- A reserved bit set with a listed OPCODE, and an unlisted OPCODE beside the last listed one. -/
theorem test_witness_IllegalWordCompletes :
    (0x103 : Word).extractLsb' 8 56 ≠ 0 ∧ (0x8000000000000001 : Word).extractLsb' 8 56 ≠ 0 ∧
    (0x34 : Word).toNat % 256 ∉
      [0x01, 0x02, 0x03, 0x04, 0x05, 0x10, 0x11, 0x20, 0x21, 0x30, 0x31, 0x32, 0x33] := by decide

/-- The latch of a command just accepted. -/
def latchOf (i : Instr) (ops : Bank) (budget : Word) (syms : List Int) : Latch :=
  (started i ops budget syms).inputs

/-- In every witness below that names `latchOf`, the engine is BUSY with that latch. -/
theorem test_witness_started_busy (i : Instr) (ops : Bank) (budget : Word) (syms : List Int) :
    (started i ops budget syms).engine = .busy (latchOf i ops budget syms) := rfl

theorem test_witness_GcdCommand :
    (let l := latchOf .gcd (ops5 (2 ^ 63 - 1) 0 0 0 0) 0 []
     Int.gcd (opS l 0) (opS l 1) ≤ 2 ^ 63 - 1 ∧ 2 ^ 63 - 1 ≤ Int.gcd (opS l 0) (opS l 1)) ∧
    (let l := latchOf .gcd (ops5 (-2 ^ 63) 0 0 0 0) 0 []
     Int.gcd (opS l 0) (opS l 1) = 2 ^ 63) ∧
    (let l := latchOf .gcd (ops5 0 (-2 ^ 63) 0 0 0) 0 []
     Int.gcd (opS l 0) (opS l 1) = 2 ^ 63) ∧
    (let l := latchOf .gcd (ops5 (-2 ^ 63) (-2 ^ 63) 0 0 0) 0 []
     Int.gcd (opS l 0) (opS l 1) = 2 ^ 63) := by decide

theorem test_witness_CoprimeCommand :
    (let l := latchOf .coprime (ops5 (-2 ^ 63) (2 ^ 63 - 1) 0 0 0) 0 []
     opS l 0 = -2 ^ 63 ∧ opS l 1 = 2 ^ 63 - 1) := by decide

theorem test_witness_ModpowCommand :
    (let l := latchOf .modpow (ops5 5 0 1 0 0) 0 []; 0 < opS l 2 ∧ 0 ≤ opS l 1) ∧
    (let l := latchOf .modpow (ops5 2 3 0 0 0) 0 []; opS l 2 ≤ 0 ∨ opS l 1 < 0) ∧
    (let l := latchOf .modpow (ops5 2 (-1) 5 0 0) 0 []; opS l 1 < 0) := by decide

theorem test_witness_ModinvCommand :
    (let l := latchOf .modinv (ops5 1 2 0 0 0) 0 []; 2 ≤ opS l 1 ∧ Int.gcd (opS l 0) (opS l 1) = 1) ∧
    (let l := latchOf .modinv (ops5 5 0 0 0 0) 0 []; opS l 1 ≤ 0) ∧
    (let l := latchOf .modinv (ops5 5 1 0 0 0) 0 []; opS l 1 = 1) ∧
    (let l := latchOf .modinv (ops5 0 2 0 0 0) 0 []; 2 ≤ opS l 1 ∧ Int.gcd (opS l 0) (opS l 1) ≠ 1) := by
  decide

theorem firstCoprime_3 : FirstCoprime 3 2 :=
  ⟨by decide, by decide, by decide, fun u h1 h2 => by omega⟩

theorem firstCoprime_4 : FirstCoprime 4 3 :=
  ⟨by decide, by decide, by decide, fun u h1 h2 => by obtain rfl : u = 2 := by omega
                                                      decide⟩

theorem test_witness_ChooseeCommand :
    (let l := latchOf .choosee (ops5 3 0 0 0 0) 1 []
     3 ≤ opS l 0 ∧ FirstCoprime (opS l 0) 2 ∧ admits l (2 - 1 : Int).toNat) ∧
    (let l := latchOf .choosee (ops5 4 0 0 0 0) 1 []
     FirstCoprime (opS l 0) 3 ∧ ¬ admits l (3 - 1 : Int).toNat) ∧
    (let l := latchOf .choosee (ops5 2 0 0 0 0) 1 []; opS l 0 ≤ 2) :=
  ⟨⟨by decide, firstCoprime_3, .inr (by decide)⟩, ⟨firstCoprime_4, by unfold admits; decide⟩, by decide⟩

/-- Operands of KEYGEN, clause by clause: `p = 0`; `p·q = 2^63`; `e = 0`, `e = phi` and an `e` not coprime;
and the smallest `phi`. -/
theorem test_witness_KeygenCommand :
    (let l := latchOf .keygen (ops5 0 53 17 0 0) 0 []; opS l 0 ≤ 0) ∧
    (let l := latchOf .keygen (ops5 (2 ^ 62) 2 17 0 0) 0 []
     0 < opS l 0 ∧ 0 < opS l 1 ∧ opS l 0 * opS l 1 > 2 ^ 63 - 1) ∧
    (let l := latchOf .keygen (ops5 61 53 0 0 0) 0 []
     0 < opS l 0 ∧ 0 < opS l 1 ∧ opS l 0 * opS l 1 ≤ 2 ^ 63 - 1 ∧ opS l 2 < 1) ∧
    (let l := latchOf .keygen (ops5 61 53 3120 0 0) 0 []
     opS l 0 * opS l 1 ≤ 2 ^ 63 - 1 ∧ (opS l 0 - 1) * (opS l 1 - 1) ≤ opS l 2) ∧
    (let l := latchOf .keygen (ops5 61 53 2 0 0) 0 []
     opS l 0 * opS l 1 ≤ 2 ^ 63 - 1 ∧ Int.gcd (opS l 2) ((opS l 0 - 1) * (opS l 1 - 1)) ≠ 1) ∧
    (let l := latchOf .keygen (ops5 2 3 1 0 0) 0 []
     0 < opS l 0 ∧ 0 < opS l 1 ∧ opS l 0 * opS l 1 ≤ 2 ^ 63 - 1 ∧ 1 ≤ opS l 2 ∧
       opS l 2 < (opS l 0 - 1) * (opS l 1 - 1) ∧ Int.gcd (opS l 2) ((opS l 0 - 1) * (opS l 1 - 1)) = 1) := by
  decide

theorem test_witness_KeygenAutoCommand :
    (let l := latchOf .keygenAuto (ops5 61 0 0 0 0) 0 []; opS l 1 ≤ 0) ∧
    (let l := latchOf .keygenAuto (ops5 (2 ^ 62) 2 0 0 0) 0 []
     0 < opS l 0 ∧ 0 < opS l 1 ∧ opS l 0 * opS l 1 > 2 ^ 63 - 1) ∧
    (let l := latchOf .keygenAuto (ops5 2 3 0 0 0) 0 []
     0 < opS l 0 ∧ 0 < opS l 1 ∧ opS l 0 * opS l 1 ≤ 2 ^ 63 - 1 ∧ (opS l 0 - 1) * (opS l 1 - 1) ≤ 2) ∧
    (let l := latchOf .keygenAuto (ops5 2 5 0 0 0) 1 []
     0 < opS l 0 ∧ 0 < opS l 1 ∧ opS l 0 * opS l 1 ≤ 2 ^ 63 - 1 ∧
       FirstCoprime ((opS l 0 - 1) * (opS l 1 - 1)) 3 ∧ ¬ admits l (3 - 1 : Int).toNat) ∧
    (let l := latchOf .keygenAuto (ops5 2 5 0 0 0) 2 []
     0 < opS l 0 ∧ 0 < opS l 1 ∧ opS l 0 * opS l 1 ≤ 2 ^ 63 - 1 ∧
       FirstCoprime ((opS l 0 - 1) * (opS l 1 - 1)) 3 ∧ admits l (3 - 1 : Int).toNat) :=
  ⟨by decide, by decide, by decide,
   ⟨by decide, by decide, by decide, firstCoprime_4, by unfold admits; decide⟩,
   ⟨by decide, by decide, by decide, firstCoprime_4, .inr (by decide)⟩⟩

/-- A key pair of distinct primes: `n = 33`, `phi = 20`, `e = 3`, `d = 7`. -/
def keyStart : State := started .keygen (ops5 3 11 3 0 0) 0 []
def keyDone : State := after (exec .keygen keyStart)
/-- The encryption of `[0, 32]` with it, in the symbols 0 and 1, to symbols 2 and 3. -/
def encStart : State := started .encrypt (ops5 3 33 0 2 2) 0 [0, 32]
def encDone : State := after (exec .encrypt encStart)
/-- The decryption, and the cracking, of what it wrote, to symbols 4 and 5. -/
def decStart : State := startCommand { encDone with ops := ops5 7 33 2 4 2 } (encode .decrypt)
def crackStart : State := startCommand { encDone with ops := ops5 3 33 2 4 2 } (encode .crack)

theorem test_witness_KeyPairInvariants :
    exec .keygen keyStart = .next keyDone ∧ keyDone.errCode = .ok ∧
    exec .keygenAuto (started .keygenAuto (ops5 2 5 0 0 0) 0 []) =
      .next (after (exec .keygenAuto (started .keygenAuto (ops5 2 5 0 0 0) 0 []))) ∧
    (after (exec .keygenAuto (started .keygenAuto (ops5 2 5 0 0 0) 0 []))).errCode = .ok :=
  ⟨rfl, by decide, rfl, by decide⟩

theorem test_witness_EncryptDecryptRoundTrip :
    exec .keygen keyStart = .next keyDone ∧ keyDone.errCode = .ok ∧
    Nat.Prime (s64 (keyDone.res.get 0)).toNat ∧ Nat.Prime (s64 (keyDone.res.get 1)).toNat ∧
    keyDone.res.get 0 ≠ keyDone.res.get 1 ∧
    opS encStart.inputs 0 = s64 (keyDone.res.get 4) ∧ opS encStart.inputs 1 = s64 (keyDone.res.get 2) ∧
    exec .encrypt encStart = .next encDone ∧ encDone.errCode = .ok ∧
    opS decStart.inputs 0 = s64 (keyDone.res.get 5) ∧ opS decStart.inputs 1 = s64 (keyDone.res.get 2) ∧
    lenOf decStart.inputs = lenOf encStart.inputs ∧
    (∀ j, j < lenOf encStart.inputs →
      decStart.inputs.sym0.loadSym (srcOf decStart.inputs + j) =
        encDone.mem.loadSym (dstOf encStart.inputs + j)) ∧
    srcOf decStart.inputs + lenOf decStart.inputs ≤ decStart.build.memWords ∧
    dstOf decStart.inputs + lenOf decStart.inputs ≤ decStart.build.memWords :=
  ⟨rfl, by decide, (by norm_num : Nat.Prime 3), (by norm_num : Nat.Prime 11), by decide, by decide,
   by decide, rfl, by decide, by decide, by decide, by decide, by decide, by decide, by decide⟩

theorem test_witness_CrackUndoesEncrypt :
    Nat.Prime 3 ∧ Nat.Prime 11 ∧ 3 < 11 ∧ opS encStart.inputs 1 = (3 : Nat) * (11 : Nat) ∧
    Int.gcd (opS encStart.inputs 0) (((3 : Nat) - 1) * ((11 : Nat) - 1)) = 1 ∧
    exec .encrypt encStart = .next encDone ∧ encDone.errCode = .ok ∧
    opS crackStart.inputs 0 = opS encStart.inputs 0 ∧ opS crackStart.inputs 1 = opS encStart.inputs 1 ∧
    budgetOf crackStart.inputs = 0 ∧ lenOf crackStart.inputs = lenOf encStart.inputs ∧
    (∀ j, j < lenOf encStart.inputs →
      crackStart.inputs.sym0.loadSym (srcOf crackStart.inputs + j) =
        encDone.mem.loadSym (dstOf encStart.inputs + j)) ∧
    srcOf crackStart.inputs + lenOf crackStart.inputs ≤ crackStart.build.memWords ∧
    dstOf crackStart.inputs + lenOf crackStart.inputs ≤ crackStart.build.memWords :=
  ⟨by norm_num, by norm_num, by decide, by decide, by decide, rfl, by decide, by decide, by decide,
   by decide, by decide, by decide, by decide, by decide⟩

theorem sourceSymbol_of {l : Latch} {i : Nat} {w : Word} (h : l.sym0.loadSym (srcOf l + i) = some w) :
    SourceSymbol l i (s64 w) := ⟨w, h, rfl⟩

theorem sourceWritten_two {l : Latch} (hl : lenOf l = 2)
    (h0 : (l.sym0.loadSym (srcOf l + 0)).isSome) (h1 : (l.sym0.loadSym (srcOf l + 1)).isSome) :
    SourceWritten l := by
  intro i hi
  rw [hl] at hi
  obtain rfl | rfl : i = 0 ∨ i = 1 := by omega
  · exact h0
  · exact h1

/-- Two symbols: the ends 0 and `n - 1` of the range, and then 0 and `n`. -/
theorem symbolsInRange_two {l : Latch} {n : Int} {a b : Word} (hl : lenOf l = 2)
    (h0 : l.sym0.loadSym (srcOf l + 0) = some a) (h1 : l.sym0.loadSym (srcOf l + 1) = some b)
    (ha : 0 ≤ s64 a ∧ s64 a < n) (hb : 0 ≤ s64 b ∧ s64 b < n) : SymbolsInRange l n := by
  intro i hi
  rw [hl] at hi
  obtain rfl | rfl : i = 0 ∨ i = 1 := by omega
  · exact ⟨_, sourceSymbol_of h0, ha⟩
  · exact ⟨_, sourceSymbol_of h1, hb⟩

theorem firstBad_one {l : Latch} {n : Int} {a b : Word} (hl : lenOf l = 2)
    (h0 : l.sym0.loadSym (srcOf l + 0) = some a) (h1 : l.sym0.loadSym (srcOf l + 1) = some b)
    (ha : 0 ≤ s64 a ∧ s64 a < n) (hb : s64 b < 0 ∨ n ≤ s64 b) : FirstBadSymbol l n 1 := by
  refine ⟨by omega, ⟨_, sourceSymbol_of h1, hb⟩, ?_⟩
  intro j hj
  obtain rfl : j = 0 := by omega
  exact ⟨_, sourceSymbol_of h0, ha⟩

/-- The clauses of ENCRYPT (`i = .encrypt`) and of DECRYPT (`i = .decrypt`), whose hypotheses are alike:
`n = 0`; exponent -1; `SRC + LEN` and `DST + LEN` one past the end; an unwritten source word with the
ranges ending at the end of the memory; the lowest bad index; symbols 0 and `n - 1`. -/
def CipherClauses (i : Instr) : Prop :=
    State.reset.build.memWords = 1024 ∧
    (let l := latchOf i (ops5 17 0 0 2 2) 0 []; opS l 1 ≤ 0) ∧
    (let l := latchOf i (ops5 (-1) 1 0 2 2) 0 []; opS l 0 < 0) ∧
    (let l := latchOf i (ops5 0 1 1023 0 2) 0 []
     0 < opS l 1 ∧ 0 ≤ opS l 0 ∧ 1024 < srcOf l + lenOf l) ∧
    (let l := latchOf i (ops5 0 1 0 1023 2) 0 []
     0 < opS l 1 ∧ 0 ≤ opS l 0 ∧ 1024 < dstOf l + lenOf l) ∧
    (let l := latchOf i (ops5 0 1 1022 1022 2) 0 []
     0 < opS l 1 ∧ 0 ≤ opS l 0 ∧ srcOf l + lenOf l ≤ 1024 ∧ dstOf l + lenOf l ≤ 1024 ∧ ¬ SourceWritten l) ∧
    (let l := latchOf i (ops5 3 33 0 2 2) 0 [0, 33]
     srcOf l + lenOf l ≤ 1024 ∧ dstOf l + lenOf l ≤ 1024 ∧ SourceWritten l ∧ FirstBadSymbol l (opS l 1) 1) ∧
    (let l := latchOf i (ops5 3 33 0 2 2) 0 [0, 32]
     srcOf l + lenOf l ≤ 1024 ∧ dstOf l + lenOf l ≤ 1024 ∧ SymbolsInRange l (opS l 1))

theorem cipher_witness (i : Instr) : CipherClauses i := by
  refine ⟨rfl, by cases i <;> decide, by cases i <;> decide, by cases i <;> decide, by cases i <;> decide,
    ⟨by cases i <;> decide, by cases i <;> decide, by cases i <;> decide, by cases i <;> decide, ?_⟩,
    ⟨by cases i <;> decide, by cases i <;> decide, ?_, ?_⟩, ⟨by cases i <;> decide, by cases i <;> decide, ?_⟩⟩
  · intro h
    have := h 0 (by cases i <;> decide)
    revert this
    cases i <;> decide
  · exact sourceWritten_two (by cases i <;> decide) (by cases i <;> decide) (by cases i <;> decide)
  · exact firstBad_one (a := 0) (b := 33) (by cases i <;> decide) (by cases i <;> decide)
      (by cases i <;> decide) (by cases i <;> decide) (by cases i <;> decide)
  · exact symbolsInRange_two (a := 0) (b := 32) (by cases i <;> decide) (by cases i <;> decide)
      (by cases i <;> decide) (by cases i <;> decide) (by cases i <;> decide)

theorem test_witness_EncryptCommand : CipherClauses .encrypt := cipher_witness .encrypt

theorem test_witness_DecryptCommand : CipherClauses .decrypt := cipher_witness .decrypt

theorem firstDivisor_4 : FirstDivisor 4 2 :=
  ⟨by decide, by decide, by decide, fun u h1 h2 => by omega⟩

theorem firstDivisor_9 : FirstDivisor 9 3 :=
  ⟨by decide, by decide, by decide, fun u h1 h2 => by obtain rfl : u = 2 := by omega
                                                      decide⟩

theorem primeOrUnit_5 : PrimeOrUnit 5 := .inr (show Nat.Prime 5 by norm_num)

theorem test_witness_FactorizeCommand :
    (let l := latchOf .factorize (ops5 4 0 0 0 0) 1 []
     FirstDivisor (opS l 0) 2 ∧ admits l (2 - 1 : Int).toNat) ∧
    (let l := latchOf .factorize (ops5 9 0 0 0 0) 1 []
     FirstDivisor (opS l 0) 3 ∧ ¬ admits l (3 - 1 : Int).toNat) ∧
    (let l := latchOf .factorize (ops5 1 0 0 0 0) 1 []
     PrimeOrUnit (opS l 0) ∧ admits l (opS l 0 - 2).toNat) ∧
    (let l := latchOf .factorize (ops5 5 0 0 0 0) 3 []
     PrimeOrUnit (opS l 0) ∧ admits l (opS l 0 - 2).toNat) ∧
    (let l := latchOf .factorize (ops5 5 0 0 0 0) 2 []
     PrimeOrUnit (opS l 0) ∧ ¬ admits l (opS l 0 - 2).toNat) :=
  ⟨⟨firstDivisor_4, .inr (by decide)⟩, ⟨firstDivisor_9, by unfold admits; decide⟩,
   ⟨.inl (by decide), .inr (by decide)⟩, ⟨primeOrUnit_5, .inr (by decide)⟩,
   ⟨primeOrUnit_5, by unfold admits; decide⟩⟩

theorem test_witness_FactorizeReturnsLeastPrime :
    let s := started .factorize (ops5 12 0 0 0 0) 0 []
    exec .factorize s = .next (after (exec .factorize s)) ∧ (after (exec .factorize s)).errCode = .ok :=
  ⟨rfl, by decide⟩

theorem test_witness_TotientCommand :
    (let l := latchOf .totient (ops5 0 5 0 0 0) 0 []; opS l 0 ≤ 0) ∧
    (let l := latchOf .totient (ops5 (2 ^ 62 + 1) 3 0 0 0) 0 []
     0 < opS l 0 ∧ 0 < opS l 1 ∧ (opS l 0 - 1) * (opS l 1 - 1) > 2 ^ 63 - 1) ∧
    (let l := latchOf .totient (ops5 (2 ^ 62) 3 0 0 0) 0 []
     0 < opS l 0 ∧ 0 < opS l 1 ∧ (opS l 0 - 1) * (opS l 1 - 1) ≤ 2 ^ 63 - 1) := by decide

theorem firstInverse_1_2 : FirstInverse 1 2 1 :=
  ⟨by decide, by decide, by decide, fun u h1 h2 => by omega⟩

theorem firstInverse_3_5 : FirstInverse 3 5 2 :=
  ⟨by decide, by decide, by decide, fun u h1 h2 => by obtain rfl : u = 1 := by omega
                                                      decide⟩

theorem test_witness_RecoverdCommand :
    (let l := latchOf .recoverd (ops5 1 2 0 0 0) 1 []
     FirstInverse (opS l 0) (opS l 1) 1 ∧ admits l (1 : Int).toNat) ∧
    (let l := latchOf .recoverd (ops5 3 5 0 0 0) 1 []
     FirstInverse (opS l 0) (opS l 1) 2 ∧ ¬ admits l (2 : Int).toNat) ∧
    (let l := latchOf .recoverd (ops5 2 4 0 0 0) 3 []
     ¬ (2 ≤ opS l 1 ∧ Int.gcd (opS l 0) (opS l 1) = 1) ∧ admits l (opS l 1 - 1).toNat) ∧
    (let l := latchOf .recoverd (ops5 5 1 0 0 0) 1 []
     ¬ (2 ≤ opS l 1 ∧ Int.gcd (opS l 0) (opS l 1) = 1) ∧ admits l (opS l 1 - 1).toNat) ∧
    (let l := latchOf .recoverd (ops5 2 4 0 0 0) 2 []
     ¬ (2 ≤ opS l 1 ∧ Int.gcd (opS l 0) (opS l 1) = 1) ∧ ¬ admits l (opS l 1 - 1).toNat) :=
  ⟨⟨firstInverse_1_2, .inr (by decide)⟩, ⟨firstInverse_3_5, by unfold admits; decide⟩,
   ⟨by decide, .inr (by decide)⟩, ⟨by decide, .inr (by decide)⟩, ⟨by decide, by unfold admits; decide⟩⟩

theorem test_witness_RecoverdAgreesWithModinv :
    let l := latchOf .recoverd (ops5 1 2 0 0 0) 0 []
    2 ≤ opS l 1 ∧ Int.gcd (opS l 0) (opS l 1) = 1 ∧ budgetOf l = 0 := by decide

theorem firstDivisor_15 : FirstDivisor 15 3 :=
  ⟨by decide, by decide, by decide, fun u h1 h2 => by obtain rfl : u = 2 := by omega
                                                      decide⟩

/-- `e = 3`, `phi = 8`: the first inverse is 3. -/
theorem firstInverse_3_8 : FirstInverse 3 8 3 :=
  ⟨by decide, by decide, by decide, fun u h1 h2 => by obtain rfl | rfl : u = 1 ∨ u = 2 := by omega
                                                      all_goals decide⟩

/-- The clauses of CRACK up to stage 4: the bounds; `n` prime, within the budget and over it; a divisor over
the budget; `e` not coprime with `phi = 8`, within the budget and over it; an inverse over the budget. -/
theorem test_witness_CrackCommand :
    (let l := latchOf .crack (ops5 17 3233 1023 0 2) 0 []; State.reset.build.memWords < srcOf l + lenOf l) ∧
    (let l := latchOf .crack (ops5 17 3233 0 1023 2) 0 []; State.reset.build.memWords < dstOf l + lenOf l) ∧
    (let l := latchOf .crack (ops5 17 5 1024 1024 0) 3 []
     srcOf l + lenOf l ≤ 1024 ∧ dstOf l + lenOf l ≤ 1024 ∧ PrimeOrUnit (opS l 1) ∧
       admits l (opS l 1 - 2).toNat) ∧
    (let l := latchOf .crack (ops5 17 5 0 0 0) 2 []; PrimeOrUnit (opS l 1) ∧ ¬ admits l (opS l 1 - 2).toNat) ∧
    (let l := latchOf .crack (ops5 3 15 0 0 0) 1 []
     FirstDivisor (opS l 1) 3 ∧ ¬ admits l (3 - 1 : Int).toNat) ∧
    (let l := latchOf .crack (ops5 2 15 0 0 0) 7 []
     FirstDivisor (opS l 1) 3 ∧ admits l (3 - 1 : Int).toNat ∧ (8 : Int) = (3 - 1) * (opS l 1 / 3 - 1) ∧
       ¬ (2 ≤ (8 : Int) ∧ Int.gcd (opS l 0) 8 = 1) ∧ admits l (8 - 1 : Int).toNat) ∧
    (let l := latchOf .crack (ops5 2 15 0 0 0) 6 []
     FirstDivisor (opS l 1) 3 ∧ admits l (3 - 1 : Int).toNat ∧
       ¬ (2 ≤ (8 : Int) ∧ Int.gcd (opS l 0) 8 = 1) ∧ ¬ admits l (8 - 1 : Int).toNat) ∧
    (let l := latchOf .crack (ops5 3 15 0 0 0) 2 []
     FirstDivisor (opS l 1) 3 ∧ admits l (3 - 1 : Int).toNat ∧ FirstInverse (opS l 0) 8 3 ∧
       ¬ admits l (3 : Int).toNat) := by
  refine ⟨by decide, by decide, ⟨by decide, by decide, primeOrUnit_5, .inr (by decide)⟩,
    ⟨primeOrUnit_5, by unfold admits; decide⟩, ⟨firstDivisor_15, by unfold admits; decide⟩,
    ⟨firstDivisor_15, .inr (by decide), by decide, by decide, .inr (by decide)⟩,
    ⟨firstDivisor_15, .inr (by decide), by decide, by unfold admits; decide⟩,
    ⟨firstDivisor_15, .inr (by decide), firstInverse_3_8, by unfold admits; decide⟩⟩

/-- Stage 5 of CRACK: an unwritten source word; index 1 the lowest bad one; symbols 0 and `n - 1`. -/
theorem test_witness_CrackCommand_stage5 :
    (let l := latchOf .crack (ops5 3 15 0 4 2) 3 []
     srcOf l + lenOf l ≤ 1024 ∧ dstOf l + lenOf l ≤ 1024 ∧ FirstDivisor (opS l 1) 3 ∧
       admits l (3 - 1 : Int).toNat ∧ FirstInverse (opS l 0) 8 3 ∧ admits l (3 : Int).toNat ∧
       ¬ SourceWritten l) ∧
    (let l := latchOf .crack (ops5 3 15 0 4 2) 3 [0, 15]
     SourceWritten l ∧ FirstBadSymbol l (opS l 1) 1) ∧
    (let l := latchOf .crack (ops5 3 15 0 4 2) 3 [0, 14]
     SymbolsInRange l (opS l 1)) := by
  refine ⟨⟨by decide, by decide, firstDivisor_15, .inr (by decide), firstInverse_3_8, .inr (by decide), ?_⟩,
    ⟨sourceWritten_two (by decide) (by decide) (by decide), ?_⟩, ?_⟩
  · intro h
    have := h 0 (by decide)
    revert this
    decide
  · exact firstBad_one (a := 0) (b := 15) (by decide) (by decide) (by decide) (by decide) (by decide)
  · exact symbolsInRange_two (a := 0) (b := 14) (by decide) (by decide) (by decide) (by decide) (by decide)

/-- Completions, one of a command without symbols and one that writes `Sym[2]` and `Sym[3]`; an address in
the frame on each side of them. -/
theorem test_witness_CompletionFrame :
    exec .keygen keyStart = .next keyDone ∧ usesSymbols .keygen = false ∧
    exec .encrypt encStart = .next encDone ∧
    0x100F < symOffset (dstOf encStart.inputs) ∧
    symOffset (dstOf encStart.inputs + lenOf encStart.inputs) ≤ 0x1020 := ⟨rfl, rfl, rfl, by decide, by decide⟩

theorem test_witness_ErrorsArePrecise :
    let s := started .modinv (ops5 2 4 0 0 0) 0 []
    exec .modinv s = .next (after (exec .modinv s)) ∧ (after (exec .modinv s)).errCode ≠ .ok :=
  ⟨rfl, by decide⟩

theorem test_witness_CodesAndStagesOfEachCommand :
    let s := started .crack (ops5 2 15 0 0 0) 0 []
    exec .crack s = .next (after (exec .crack s)) ∧ (after (exec .crack s)).errCode ≠ .ok ∧
    exec .encrypt encStart = .next encDone ∧ encDone.errCode = .ok := ⟨rfl, by decide, rfl, by decide⟩

theorem test_witness_BudgetCapsCandidates :
    (let s := started .factorize (ops5 17 0 0 0 0) 14 []
     exec .factorize s = .next (after (exec .factorize s)) ∧ budgetOf s.inputs ≠ 0) ∧
    (let s := started .crack (ops5 3 15 0 0 0) 2 []
     exec .crack s = .next (after (exec .crack s)) ∧ budgetOf s.inputs ≠ 0) ∧
    exec .keygen keyStart = .next keyDone :=
  ⟨⟨rfl, by decide⟩, ⟨rfl, by decide⟩, rfl⟩

/-- Two states that agree on the latch and the memory and differ elsewhere; one completes, one faults. -/
theorem test_witness_CommandIsFunctionOfLatch :
    let s' := { encStart with werr := true, res := Bank.one 5 }
    let f := started .encrypt (ops5 17 3233 0 2 2) 0 [72]
    let f' := { f with werr := true }
    (encStart.inputs = s'.inputs ∧ encStart.mem = s'.mem ∧ encStart.build.memWords = s'.build.memWords ∧
      exec .encrypt encStart = .next encDone) ∧
    (f.inputs = f'.inputs ∧ f.mem = f'.mem ∧ f.build.memWords = f'.build.memWords ∧
      exec .encrypt f = .fault .uninitSymbolRead) :=
  ⟨⟨rfl, rfl, rfl, rfl⟩, rfl, rfl, rfl, rfl⟩

theorem test_witness_RepeatedCommandRepeatsItsOutcome :
    usesSymbols .choosee = false ∧
    exec .choosee (startCommand (prepared (ops5 3120 0 0 0 0) 5 []) (encode .choosee)) =
      .next (after (exec .choosee (startCommand (prepared (ops5 3120 0 0 0 0) 5 []) (encode .choosee)))) :=
  ⟨rfl, rfl⟩

/-- For AcceptedCmdWriteStarts, IdleWritesReadBack and UnwrittenWordReadsAsDraw: an idle state of a legal
build with symbol 0 written, and the last symbol word unwritten. -/
theorem test_witness_idle_bus :
    let s := prepared (ops5 1 2 3 4 5) 9 [72]
    s.engine = .idle ∧ BuildLegal s ∧ 0 < s.build.memWords ∧ 1023 < s.build.memWords ∧
      s.mem.loadSym 1023 = none ∧ (∃ j, j ≠ 1023 ∧ s.mem.loadSym j = some 72) :=
  ⟨rfl, by unfold BuildLegal; decide, by decide, by decide, by decide, 0, by decide, by decide⟩

/-- For WritesWhileBusyAreDropped and HostTurnWhileBusyKeepsOutcome. -/
theorem test_witness_busy_bus :
    BuildLegal encStart ∧ (∃ l, encStart.engine = .busy l) ∧ 1 < encStart.build.memWords ∧
      encStart.mem.loadSym 1 = some 32 :=
  ⟨by unfold BuildLegal; decide, ⟨_, rfl⟩, by decide, by decide⟩

theorem test_witness_ReadOnlyWritesIgnored : (Reg.res 7 = .id ∨ ∃ i, Reg.res 7 = .res i) := .inr ⟨7, rfl⟩

/-- Each cause of the error response at its boundary. -/
theorem test_witness_BadAccessGetsErrorResponse :
    (0x0000 < 65536 ∧ (4 : Nat) ≠ 8) ∧ (0x0044 < 65536 ∧ 0x0044 % 8 ≠ 0) ∧
    (0x00C0 < 65536 ∧ 0x00C0 ≤ 0x00C0 ∧ 0x00C0 < 0x1000) ∧ (0x0FF8 < 65536 ∧ 0x00C0 ≤ 0x0FF8 ∧ 0x0FF8 < 0x1000) ∧
    (0x3000 < 65536 ∧ 0x1000 + 8 * State.reset.build.memWords ≤ 0x3000) := by decide

/-- For CtrlWriteSetsEnable, SoftResetEffects and InterruptFollowsDone: the values of the writes. -/
theorem test_witness_ctrl_status_values :
    (1 : Word).getLsbD 1 = false ∧ (2 : Word).getLsbD 1 = true ∧ (2 : Word).getLsbD 0 = false ∧
    exec .keygen keyStart = .next keyDone ∧ State.reset.engine = .idle :=
  ⟨by decide, by decide, by decide, rfl, rfl⟩

/-- The second clause of SoftResetEffects: a soft reset ends the command in flight. -/
theorem test_witness_SoftResetEffects :
    (∃ l, encStart.engine = .busy l) ∧
      (busAccess encStart (memWrite encStart.build 0x0010 3)).engine = .idle := ⟨⟨_, rfl⟩, rfl⟩

theorem test_witness_WaitRepeatsWhileBusy :
    { encStart with program := [.wait] }.program = .wait :: [] ∧ encStart.busy = true ∧
      { encDone with program := [.wait] }.program = .wait :: [] ∧ encDone.busy = false :=
  ⟨rfl, rfl, rfl, rfl⟩

theorem memoryWhole_encStart : MemoryWhole encStart := by
  have h0 : MemoryWhole State.reset := ⟨List.Pairwise.nil, fun a h => by simp [State.reset] at h⟩
  refine ⟨storeSym_wf _ _ (storeSym_wf _ _ h0.1), ?_⟩
  exact storeSym_wholeWords _ (show 1 < 1024 by decide)
    (storeSym_wholeWords _ (show 0 < 1024 by decide) h0.2)

theorem latchLive_encStart : LatchLive encStart := by
  intro l hl
  have h : Engine.busy encStart.inputs = .busy l := hl
  cases h
  exact ⟨rfl, rfl⟩

/-- For the invariants and SafeStep: a BUSY state with symbols written meets them, and steps. -/
theorem test_witness_StepKeepsInvariant :
    encStart.Inv ∧ step encStart = .next (after (step encStart)) :=
  ⟨⟨by unfold BuildLegal; decide, memoryWhole_encStart, latchLive_encStart,
    ⟨fun h => absurd rfl h, fun _ => rfl, by decide, fun h => absurd rfl h⟩, by unfold ResultsNonneg; decide⟩,
   rfl⟩

theorem test_witness_StepKeepsLatchLive :
    LatchLive encStart ∧ step encStart = .next (after (step encStart)) := ⟨latchLive_encStart, rfl⟩

theorem test_witness_StepKeepsMemoryWhole :
    MemoryWhole encStart ∧ step encStart = .next (after (step encStart)) := ⟨memoryWhole_encStart, rfl⟩

/-- A completion that changes the results, and a soft reset that does. -/
theorem test_witness_OnlyCompletionOrResetChangesOutcome :
    (step keyStart = .next (after (step keyStart)) ∧ (after (step keyStart)).res ≠ keyStart.res) ∧
    (let s := { keyDone with program := asmSrst }
     step s = .next (after (step s)) ∧ (after (step s)).res ≠ s.res) :=
  ⟨⟨rfl, by decide⟩, rfl, by decide⟩

theorem test_witness_EveryCommandEnds :
    { encStart with schedule := [.host, .host, .engine] }.busy = true ∧ encStart.busy = true := ⟨rfl, rfl⟩

theorem test_witness_StepsAreSafeOnWrittenSource : ∀ l, encStart.engine = .busy l → SourceWritten l := by
  intro l hl
  have h : Engine.busy encStart.inputs = .busy l := hl
  cases h
  exact sourceWritten_two (by decide) (by decide) (by decide)

/-- The clauses of StepIsTheTurnOfItsAgent: the host by the schedule and by default, with a line that is no
WAIT and with none left; the engine by the schedule and by default, IDLE and BUSY; the platform. -/
theorem test_witness_StepIsTheTurnOfItsAgent :
    (let s := { encStart with schedule := [.host, .engine], program := asmSrst }
     s.schedule = .host :: [.engine] ∧ s.program = .wr .ctrl 0x2 :: [] ∧ HostOp.wr .ctrl 0x2 ≠ .wait) ∧
    (State.reset.schedule = [] ∧ State.reset.engine = .idle ∧ State.reset.program = []) ∧
    (let s := { encStart with schedule := [.engine] }
     s.schedule = .engine :: [] ∧ ∃ l, s.engine = .busy l ∧ decode l.cmd = .command .encrypt) ∧
    (encStart.schedule = [] ∧ ∃ l, encStart.engine = .busy l) ∧
    { encStart with schedule := [.platform] }.schedule = .platform :: [] :=
  ⟨⟨rfl, rfl, by decide⟩, ⟨rfl, rfl, rfl⟩, ⟨rfl, _, rfl, by decide⟩, ⟨rfl, _, rfl⟩, rfl⟩

/-- The symbol clause of HostReadsReturnTheValue, IDLE and BUSY, at the last word of the memory. -/
theorem test_witness_HostReadsReturnTheValue :
    let s := { State.reset with mem := Memory.storeSym [] 1023 72 }
    let t := startCommand s 0x01
    (BuildLegal s ∧ 1023 < s.build.memWords ∧ s.mem.loadSym 1023 = some 72) ∧
    (BuildLegal t ∧ t.busy = true ∧ t.mem.loadSym 1023 = some 72) :=
  ⟨⟨by unfold BuildLegal; decide, by decide, by decide⟩, by unfold BuildLegal; decide, rfl, by decide⟩

/-- The SETOPS clause of HostLineEncodings: no value, and all eight. -/
theorem test_witness_HostLineEncodings : 0 ≤ 8 ∧ 8 ≤ 8 := by decide

/-- Just below and just past the window of a block at 0x10000. -/
theorem test_witness_AccessOutsideWindowIsNotTheBlocks :
    let s := { State.reset with build := ⟨1024, 0x10000⟩ }
    0xFFFF < s.build.base ∧ s.build.base + 65536 ≤ 0x20000 := by decide

/-- P1's reads after its first command, through the host's turns: while IDLE `RES0` reads 61. -/
theorem test_host_read_of_result :
    let s := { after (step (started .keygen (ops5 61 53 17 0 0) 0 [])) with program := [.rd (.res 0)] }
    dataOf (after (step s)) = some 61 ∧ (after (step s)).program = [] := by decide

end Sys2Proof.Tests
end

/-! Completion as a function of the latch (00_scope.md R14): `exec` commits an outcome computed from the latch and
`MEM_WORDS` (`exec_eq_commit`), and all that `commit` reads of the state it completes is the symbol memory. -/

namespace Sys2Proof.Machine

/-- An outcome committed to two states of equal symbol memory gives equal results, symbols, error record and
count. -/
theorem commit_next_of_mem_eq {s s' t : State} {o : CmdOutcome} (hmem : s.mem = s'.mem)
    (h : commit s o = .next t) :
    ∃ t', commit s' o = .next t' ∧ t'.res = t.res ∧ t'.mem = t.mem ∧ t'.errCode = t.errCode ∧
      t'.errStage = t.errStage ∧ t'.errInfo = t.errInfo ∧ t'.iters = t.iters := by
  rcases commit_next h with ⟨rs, ws, k, rfl, rfl⟩ | ⟨code, stage, info, k, rfl, rfl⟩
  · have hws : s'.mem.commit ws = s.mem.commit ws := by rw [hmem]
    exact ⟨_, commit_ok s' rs ws k, rfl, hws, rfl, rfl, rfl, rfl⟩
  · exact ⟨_, commit_err s' code stage info k, rfl, hmem.symm, rfl, rfl, rfl, rfl⟩

/-- Whether `commit` faults is a matter of the outcome alone. -/
theorem commit_fault_of_fault {s : State} (s' : State) {o : CmdOutcome} {f : Fault}
    (h : commit s o = .fault f) : commit s' o = .fault f := by
  cases o with
  | ok rs ws k => cases h
  | err code stage info k => cases h
  | uninitSymbolRead => exact h

/-- Settles O34: states that agree on the latch and `MEM_WORDS` commit the same outcome. -/
theorem commandIsFunctionOfLatch : Obligations.CommandIsFunctionOfLatch := by
  intro i s s' hinputs hmem hwords
  rw [exec_eq_commit i s, exec_eq_commit i s', ← hinputs, ← hwords]
  exact ⟨fun _ => commit_next_of_mem_eq hmem, fun _ => commit_fault_of_fault s'⟩

end Sys2Proof.Machine

/-! One step as an inversion lemma (70_reset_and_hazards.md R250): a host turn, a turn of the idle engine, a
power-on reset, or a completion. The invariants of the machine follow from it, one lemma per kind of turn. -/

namespace Sys2Proof.Machine

/-! ### What a step leaves -/

/-- `t` is a state that a completion from `s` can leave (60_exceptions.md R212 to R214), with what every
command ensures of its outcome. -/
inductive Completes (s : State) : State → Prop
  | ok (rs : List Int) (ws : List (Nat × Int)) (k : Nat)
      (results : ∀ r ∈ rs, 0 ≤ r ∧ r ≤ maxS64) (writes : ∀ p ∈ ws, p.1 < s.build.memWords) :
      Completes s (okState s (Bank.ofResults rs) (s.mem.commit ws) k)
  | err (code : ErrCode) (stage : Stage) (info k : Nat)
      (failed : code ≠ .ok) (reported : stage ≠ .totient) (index : info ≠ 0 → code = .symbolOutOfRange) :
      Completes s (errState s code stage info k)

theorem Completes.engine_idle {s t : State} (h : Completes s t) : t.engine = .idle := by
  cases h <;> rfl

theorem Completes.done_set {s t : State} (h : Completes s t) : t.done = true := by
  cases h <;> rfl

theorem Completes.build_eq {s t : State} (h : Completes s t) : t.build = s.build := by
  cases h <;> rfl

/-- No command fails at stage 3 (43_cracker.md R186). -/
theorem ne_totient_of_mem_stagesOf {i : Instr} {st : Stage} (h : st ∈ stagesOf i) : st ≠ .totient := by
  rintro rfl
  revert h
  cases i <;> decide

/-- A success writes only symbol words of the memory (20_memory.md R67). -/
theorem OutcomeLegal.writes_lt {n : Nat} {i : Instr} {l : Latch} {rs : List Int} {ws : List (Nat × Int)}
    {k : Nat} (h : OutcomeLegal n i l (.ok rs ws k)) : ∀ p ∈ ws, p.1 < n := by
  obtain ⟨_, _, ⟨_, rfl⟩ | ⟨_, hrange, vs, hlen, rfl⟩⟩ := h
  · simp
  · intro p hp
    obtain ⟨_, hlt⟩ := mem_writesAt hp
    have hbound : srcOf l + lenOf l ≤ n ∧ dstOf l + lenOf l ≤ n := of_decide_eq_true hrange
    omega

theorem exec_completes {i : Instr} {s t : State} (h : exec i s = .next t) : Completes s t := by
  rcases exec_cases i s with ⟨rs, ws, k, hl, he⟩ | ⟨code, stage, info, k, hl, he⟩ | ⟨_, he⟩
  · cases he.symm.trans h
    exact .ok rs ws k hl.1 hl.writes_lt
  · cases he.symm.trans h
    obtain ⟨_, hfailed, hstage, hindex, _⟩ := hl
    exact .err code stage info k hfailed (ne_totient_of_mem_stagesOf hstage) hindex
  · cases he.symm.trans h

theorem engineTurn_next {s t : State} (h : engineTurn s = .next t) :
    t = s ∨ (s.busy = true ∧ Completes s t) := by
  rcases engineTurn_cases s with ⟨_, he⟩ | ⟨l, i, hb, _, he⟩ | ⟨l, _, hb, _, he⟩
  · cases he.symm.trans h
    exact .inl rfl
  · exact .inr ⟨(busy_iff s).mpr ⟨l, hb⟩, exec_completes (he.symm.trans h)⟩
  · cases he.symm.trans h
    exact .inr ⟨(busy_iff s).mpr ⟨l, hb⟩, .err _ _ _ _ (by decide) (by decide) (by simp)⟩

/-- Everything a step that answers a next state can do. -/
theorem step_next {s t : State} (h : step s = .next t) :
    ∃ sch, t = hostTurn { s with schedule := sch } ∨ t = { s with schedule := sch } ∨
      t = powerOnReset { s with schedule := sch } ∨
      (s.busy = true ∧ Completes { s with schedule := sch } t) := by
  obtain ⟨sch, hs⟩ := step_cases s
  refine ⟨sch, ?_⟩
  rcases hs with hs | hs | hs
  · cases hs.symm.trans h
    exact .inl rfl
  · rcases engineTurn_next (hs.symm.trans h) with rfl | hc
    · exact .inr (.inl rfl)
    · exact .inr (.inr (.inr hc))
  · cases hs.symm.trans h
    exact .inr (.inr (.inl rfl))

/-- `t` is a state that one host access can leave (10_state.md R25, R26, R44, 20_memory.md R65): the cases of
`busAccess_cases`, named. -/
inductive BusEffect (s : State) : State → Prop
  | answered (r : Option Response) (d : Nat) : BusEffect s { s with resp := r, draws := d }
  | flagged (r : Option Response) : BusEffect s { s with resp := r, werr := true }
  | softReset : BusEffect s { resetRegisters s with resp := some .writeOk }
  | enable (b : Bool) : BusEffect s { s with resp := some .writeOk, ie := b }
  | status (v : Word) : BusEffect s { writeStatus s v with resp := some .writeOk }
  | start (w : Word) (idle : s.engine = .idle) : BusEffect s { startCommand s w with resp := some .writeOk }
  | budget (v : Word) (idle : s.engine = .idle) : BusEffect s { s with resp := some .writeOk, budget := v }
  | operand (i : Fin 8) (v : Word) (idle : s.engine = .idle) :
      BusEffect s { s with resp := some .writeOk, ops := s.ops.set i v }
  | symbol (i : Nat) (v : Word) (idle : s.engine = .idle) (inside : i < s.build.memWords) :
      BusEffect s { s with resp := some .writeOk, mem := s.mem.storeSym i v }

theorem busAccess_effect (s : State) (a : Access) : BusEffect s (busAccess s a) := by
  rcases busAccess_cases s a with ⟨r, d, ht⟩ | ⟨r, ht⟩ | ht | ⟨b, ht⟩ | ⟨v, ht⟩ | ⟨hi, w, ht⟩ |
    ⟨hi, v, ht⟩ | ⟨hi, i, v, ht⟩ | ⟨hi, i, v, hlt, ht⟩ <;> rw [ht]
  · exact .answered r d
  · exact .flagged r
  · exact .softReset
  · exact .enable b
  · exact .status v
  · exact .start w hi
  · exact .budget v hi
  · exact .operand i v hi
  · exact .symbol i v hi hlt

/-- What the bookkeeping of turns, every effect of a host access, the power-on reset and every completion keep, every
step keeps. -/
theorem step_keeps {P : State → Prop} (hsched : ∀ s sch, P s → P { s with schedule := sch })
    (hprog : ∀ s p, P s → P { s with program := p }) (hbus : ∀ s t, P s → BusEffect s t → P t)
    (hreset : ∀ s, P s → P (powerOnReset s)) (hcompl : ∀ s t, P s → Completes s t → P t)
    {s t : State} (hs : P s) (h : step s = .next t) : P t := by
  obtain ⟨sch, rfl | rfl | rfl | ⟨_, hc⟩⟩ := step_next h
  · rcases hostTurn_cases { s with schedule := sch } with ⟨_, ht⟩ | ⟨op, _, p, _, ht⟩
    · rw [ht]
      exact hsched s sch hs
    · rw [ht]
      exact hprog _ p (hbus _ _ (hsched s sch hs) (busAccess_effect _ _))
  · exact hsched s sch hs
  · exact hreset _ (hsched s sch hs)
  · exact hcompl _ t (hsched s sch hs) hc

/-! ### The latch -/

theorem latchLive_of_idle {s : State} (h : s.engine = .idle) : LatchLive s := by
  intro l hl
  cases h.symm.trans hl

theorem latchLive_startCommand (s : State) (w : Word) : LatchLive (startCommand s w) := by
  intro l hl
  cases hl
  exact ⟨rfl, rfl⟩

/-- A STATUS write can only clear DONE. -/
theorem latchLive_writeStatus {s : State} (v : Word) (h : LatchLive s) : LatchLive (writeStatus s v) := by
  intro l hl
  obtain ⟨hlive, hdone⟩ := h l hl
  exact ⟨hlive, by simp [hdone]⟩

theorem BusEffect.keeps_latchLive {s t : State} (h : LatchLive s) (he : BusEffect s t) : LatchLive t := by
  cases he with
  | answered r d => exact h
  | flagged r => exact h
  | softReset => exact latchLive_of_idle rfl
  | enable b => exact h
  | status v => exact latchLive_writeStatus v h
  | start w _ => exact latchLive_startCommand s w
  | budget v idle => exact latchLive_of_idle idle
  | operand i v idle => exact latchLive_of_idle idle
  | symbol i v idle _ => exact latchLive_of_idle idle

theorem step_keeps_latchLive {s t : State} (hs : LatchLive s) (h : step s = .next t) : LatchLive t :=
  step_keeps (P := LatchLive) (fun _ _ h => h) (fun _ _ h => h) (fun _ _ => BusEffect.keeps_latchLive)
    (fun _ _ => latchLive_of_idle rfl) (fun _ _ _ hc => latchLive_of_idle hc.engine_idle) hs h

/-- Settles O52: a host write that starts a command takes the latch from the live values, and while BUSY no
access changes them; every other change of the latch leaves the engine IDLE. -/
theorem stepKeepsLatchLive : Obligations.StepKeepsLatchLive :=
  fun _ _ => step_keeps_latchLive

/-! ### The build and the symbol memory -/

theorem BusEffect.build_eq {s t : State} (he : BusEffect s t) : t.build = s.build := by
  cases he <;> rfl

theorem step_build {s t : State} (h : step s = .next t) : t.build = s.build :=
  step_keeps (P := fun u => u.build = s.build) (fun _ _ h => h) (fun _ _ h => h)
    (fun _ _ h he => he.build_eq.trans h) (fun _ h => h) (fun _ _ h hc => hc.build_eq.trans h) rfl h

theorem BusEffect.keeps_memoryWhole {s t : State} (hs : MemoryWhole s) (he : BusEffect s t) :
    MemoryWhole t := by
  obtain ⟨hwf, hwhole⟩ := hs
  cases he with
  | symbol i v _ inside => exact ⟨storeSym_wf i v hwf, storeSym_wholeWords v inside hwhole⟩
  | _ => exact ⟨hwf, hwhole⟩

theorem Completes.keeps_memoryWhole {s t : State} (hs : MemoryWhole s) (h : Completes s t) :
    MemoryWhole t := by
  obtain ⟨hwf, hwhole⟩ := hs
  cases h with
  | ok rs ws k _ hws => exact ⟨commit_wf ws _ hwf, commit_wholeWords ws _ hws hwhole⟩
  | err code stage info k _ _ _ => exact ⟨hwf, hwhole⟩

theorem memoryWhole_of_mem_nil {s : State} (h : s.mem = []) : MemoryWhole s := by
  unfold MemoryWhole
  rw [h]
  exact ⟨List.Pairwise.nil, fun a ha => by simp at ha⟩

theorem step_keeps_memoryWhole {s t : State} (hs : MemoryWhole s) (h : step s = .next t) : MemoryWhole t :=
  step_keeps (P := MemoryWhole) (fun _ _ h => h) (fun _ _ h => h) (fun _ _ => BusEffect.keeps_memoryWhole)
    (fun _ _ => memoryWhole_of_mem_nil rfl) (fun _ _ => Completes.keeps_memoryWhole) hs h

/-! ### The outcome registers -/

/-- RES, ERRCODE, ERRSTAGE, ERRINFO and ITERS are the same in both states. -/
structure SameOutcome (s t : State) : Prop where
  res : t.res = s.res
  errCode : t.errCode = s.errCode
  errStage : t.errStage = s.errStage
  errInfo : t.errInfo = s.errInfo
  iters : t.iters = s.iters

/-- Every register has its reset value and the engine is IDLE (70_reset_and_hazards.md R240, R241). -/
def RegistersReset (t : State) : Prop :=
  ∃ u : State, t = { resetRegisters u with mem := t.mem, program := t.program, resp := t.resp }

/-- A host access keeps the outcome registers, or is the soft reset. -/
theorem BusEffect.outcome {s t : State} (he : BusEffect s t) : SameOutcome s t ∨ RegistersReset t := by
  cases he with
  | softReset => exact .inr ⟨s, rfl⟩
  | _ => exact .inl ⟨rfl, rfl, rfl, rfl, rfl⟩

theorem hostTurn_outcome (s : State) : SameOutcome s (hostTurn s) ∨ RegistersReset (hostTurn s) := by
  rcases hostTurn_cases s with ⟨_, ht⟩ | ⟨op, _, p, _, ht⟩ <;> rw [ht]
  · exact .inl ⟨rfl, rfl, rfl, rfl, rfl⟩
  · rcases (busAccess_effect s (hostOpAccess s.build op)).outcome with ⟨h1, h2, h3, h4, h5⟩ | ⟨u, hu⟩
    · exact .inl ⟨h1, h2, h3, h4, h5⟩
    · exact .inr ⟨u, by rw [hu]⟩

/-- A step keeps the outcome registers, resets every register, or is a completion. -/
theorem step_outcome {s t : State} (h : step s = .next t) :
    SameOutcome s t ∨ RegistersReset t ∨
      (s.busy = true ∧ ∃ sch, Completes { s with schedule := sch } t) := by
  obtain ⟨sch, rfl | rfl | rfl | ⟨hb, hc⟩⟩ := step_next h
  · rcases hostTurn_outcome { s with schedule := sch } with ⟨h1, h2, h3, h4, h5⟩ | hr
    · exact .inl ⟨h1, h2, h3, h4, h5⟩
    · exact .inr (.inl hr)
  · exact .inl ⟨rfl, rfl, rfl, rfl, rfl⟩
  · exact .inr (.inl ⟨{ s with schedule := sch }, rfl⟩)
  · exact .inr (.inr ⟨hb, sch, hc⟩)

/-- Settles O54: a step that does not keep the outcome registers is a reset or a completion. -/
theorem onlyCompletionOrResetChangesOutcome : Obligations.OnlyCompletionOrResetChangesOutcome := by
  intro s t h hchanged
  rcases step_outcome h with ⟨h1, h2, h3, h4, h5⟩ | ⟨u, hu⟩ | ⟨hb, sch, hc⟩
  · simp [h1, h2, h3, h4, h5] at hchanged
  · rw [hu]
    exact ⟨rfl, .inr ⟨rfl, rfl, rfl, rfl, rfl, rfl⟩⟩
  · exact ⟨hc.engine_idle, .inl ⟨hb, hc.done_set⟩⟩

/-- A value of a result register reads back as nonnegative (60_exceptions.md R213). -/
theorem s64_enc64_nonneg {v : Int} (h : 0 ≤ v ∧ v ≤ maxS64) : 0 ≤ s64 (enc64 v) := by
  unfold maxS64 at h
  have hv : (enc64 v).toInt = v := BitVec.toInt_ofInt_eq_self (by decide) (by omega) (by omega)
  unfold s64
  rw [hv]
  exact h.1

theorem getD_nonneg_and_le_maxS64 {rs : List Int} (h : ∀ r ∈ rs, 0 ≤ r ∧ r ≤ maxS64) (j : Nat) :
    0 ≤ rs.getD j 0 ∧ rs.getD j 0 ≤ maxS64 := by
  by_cases hj : j < rs.length
  · rw [List.getD_eq_getElem _ _ hj]
    exact h _ (List.getElem_mem hj)
  · rw [List.getD_eq_default _ _ (by omega)]
    decide

/-- Register `i` of the bank a success leaves holds result `i`. -/
theorem Bank.get_ofResults (rs : List Int) (i : Fin 8) : (Bank.ofResults rs).get i = enc64 (rs.getD i 0) := by
  fin_cases i <;> rfl

/-- What the invariant says of the outcome registers. -/
def OutcomeInv (s : State) : Prop := OutcomeClean s ∧ ResultsNonneg s

theorem outcomeInv_zero {s : State} (hres : s.res = Bank.zero) (hstage : s.errStage ≠ .totient)
    (hok : s.errCode = .ok → s.errStage = .none) (hinfo : s.errInfo ≠ 0 → s.errCode = .symbolOutOfRange) :
    OutcomeInv s :=
  ⟨⟨fun _ => hres, hok, hstage, hinfo⟩, fun i => by rw [hres, Bank.get_zero]; decide⟩

theorem SameOutcome.outcomeInv {s t : State} (h : SameOutcome s t) (hs : OutcomeInv s) : OutcomeInv t := by
  unfold OutcomeInv OutcomeClean ResultsNonneg
  rw [h.res, h.errCode, h.errStage, h.errInfo]
  exact hs

theorem RegistersReset.outcomeInv {t : State} (h : RegistersReset t) : OutcomeInv t := by
  obtain ⟨u, hu⟩ := h
  rw [hu]
  exact outcomeInv_zero rfl (by simp) (by simp) (by simp)

theorem Completes.outcomeInv {s t : State} (h : Completes s t) : OutcomeInv t := by
  cases h with
  | ok rs ws k hrs _ =>
    refine ⟨⟨by simp, by simp, by simp, by simp⟩, fun i => ?_⟩
    rw [okState_res, Bank.get_ofResults]
    exact s64_enc64_nonneg (getD_nonneg_and_le_maxS64 hrs i)
  | err code stage info k hfailed hstage hindex =>
    refine outcomeInv_zero rfl hstage (fun hok => absurd hok hfailed) (fun hne => hindex ?_)
    rintro rfl
    exact hne rfl

theorem step_keeps_outcomeInv {s t : State} (hs : OutcomeInv s) (h : step s = .next t) : OutcomeInv t := by
  rcases step_outcome h with hsame | hreset | ⟨_, _, hc⟩
  · exact hsame.outcomeInv hs
  · exact hreset.outcomeInv
  · exact hc.outcomeInv

/-! ### The invariant -/

/-- Settles O51: each part of the invariant is kept on its own. -/
theorem stepKeepsInvariant : Obligations.StepKeepsInvariant := by
  rintro s t ⟨hbuild, hmem, hlatch, hclean, hnonneg⟩ h
  have hbuild' : BuildLegal t := by unfold BuildLegal; rwa [step_build h]
  obtain ⟨hclean', hnonneg'⟩ := step_keeps_outcomeInv ⟨hclean, hnonneg⟩ h
  exact ⟨hbuild', step_keeps_memoryWhole hmem h, step_keeps_latchLive hlatch h, hclean', hnonneg'⟩

end Sys2Proof.Machine

/-! The iteration budget (10_state.md R33, R34): how many candidates a command's outcome counts. -/

namespace Sys2Proof.Machine

/-- The candidates tested, as a scan counts them (10_state.md R34). -/
def ScanResult.tested : ScanResult → Nat
  | .found _ k | .exhausted k | .overBudget k => k

/-- The count a command's outcome puts into ITERS; no completion follows the model-only fault. -/
def CmdOutcome.tested : CmdOutcome → Nat
  | .ok _ _ k | .err _ _ _ k => k
  | .uninitSymbolRead => 0

/-- A completion writes the count of its outcome into ITERS. -/
theorem iters_of_exec {i : Instr} {s t : State} (h : exec i s = .next t) :
    t.iters = BitVec.ofNat 64 (outcomeOf s.build.memWords i s.inputs).tested := by
  rw [exec_eq_commit] at h
  rcases commit_next h with ⟨rs, ws, k, ho, rfl⟩ | ⟨code, stage, info, k, ho, rfl⟩ <;> rw [ho] <;> rfl

theorem toNat_iters_le_of_exec {i : Instr} {s t : State} (h : exec i s = .next t) :
    t.iters.toNat ≤ (outcomeOf s.build.memWords i s.inputs).tested := by
  rw [iters_of_exec h, BitVec.toNat_ofNat]
  exact Nat.mod_le _ _

/-! ### Commands with no scan -/

@[simp] theorem complete_tested (rs : List Int) : (complete rs).tested = 0 := rfl

@[simp] theorem raise_tested (code : ErrCode) : (raise code).tested = 0 := rfl

/-- The cipher map adds no candidate to those counted before it. -/
theorem cipherMap_tested_le (k : Nat) (n : Int) (l : Latch) (st : Stage) (rs : List Int) (it : Nat) :
    (cipherMap k n l st rs it).tested ≤ it := by
  unfold cipherMap
  split
  · exact Nat.zero_le it
  · split <;> exact le_rfl

theorem cipherCmd_tested (n : Nat) (l : Latch) : (cipherCmd n l).tested = 0 := by
  unfold cipherCmd
  dsimp only
  split_ifs
  · rfl
  · rfl
  · exact Nat.le_zero.mp (cipherMap_tested_le _ _ _ _ _ 0)
  · rfl

theorem gcdCmd_tested (l : Latch) : (gcdCmd l).tested = 0 := by
  unfold gcdCmd
  dsimp only
  split_ifs <;> rfl

theorem modpowCmd_tested (l : Latch) : (modpowCmd l).tested = 0 := by
  unfold modpowCmd
  dsimp only
  split_ifs <;> rfl

theorem modinvCmd_tested (l : Latch) : (modinvCmd l).tested = 0 := by
  unfold modinvCmd
  dsimp only
  split_ifs
  · rfl
  · rfl
  · split <;> rfl

theorem totientCmd_tested (l : Latch) : (totientCmd l).tested = 0 := by
  unfold totientCmd
  dsimp only
  split_ifs <;> rfl

theorem keygenCmd_tested (l : Latch) : (keygenCmd l).tested = 0 := by
  unfold keygenCmd
  dsimp only
  split
  · rfl
  · split_ifs
    · rfl
    · split <;> rfl
    · rfl

/-- A command with no scan counts no candidate (R34). -/
theorem outcomeOf_tested_eq_zero {i : Instr} (n : Nat) (l : Latch)
    (hi : i ∈ [.gcd, .coprime, .modpow, .modinv, .keygen, .encrypt, .decrypt, .totient]) :
    (outcomeOf n i l).tested = 0 := by
  simp only [List.mem_cons, List.not_mem_nil, or_false] at hi
  rcases hi with rfl | rfl | rfl | rfl | rfl | rfl | rfl | rfl
  · exact gcdCmd_tested l
  · rfl
  · exact modpowCmd_tested l
  · exact modinvCmd_tested l
  · exact keygenCmd_tested l
  · exact cipherCmd_tested n l
  · exact cipherCmd_tested n l
  · exact totientCmd_tested l

/-! ### Commands with a scan -/

/-- A scan under a budget tests at most `BUDGET` candidates (R33). -/
theorem scan_tested_le_budget {test : Int → Bool} {budget left : Nat} {v : Int} (hb : budget ≠ 0) :
    (scan test budget left 0 v).tested ≤ budget := by
  have h := scan_spec test budget left 0 v (by omega)
  generalize scan test budget left 0 v = r at h
  match r, h with
  | .found _ k, ⟨_, _, _, _, _, _, hk⟩ => exact hk.resolve_left hb
  | .exhausted k, ⟨_, _, hk⟩ => exact hk.resolve_left hb
  | .overBudget k, ⟨hk, _⟩ => exact hk.le

theorem chooseeCmd_tested (l : Latch) : (chooseeCmd l).tested = (chooseE (opS l 0) (budgetOf l)).tested := by
  unfold chooseeCmd
  cases chooseE (opS l 0) (budgetOf l) <;> rfl

theorem factorizeCmd_tested (l : Latch) :
    (factorizeCmd l).tested = (factorScan (opS l 0) (budgetOf l)).tested := by
  unfold factorizeCmd
  dsimp only
  cases factorScan (opS l 0) (budgetOf l) <;> rfl

theorem recoverdCmd_tested (l : Latch) :
    (recoverdCmd l).tested = (recoverScan (opS l 0) (opS l 1) (budgetOf l)).tested := by
  unfold recoverdCmd
  cases recoverScan (opS l 0) (opS l 1) (budgetOf l) <;> rfl

/-- KEYGEN_AUTO counts nothing when `key_base` fails, and the candidates of `choose_e` otherwise. -/
theorem keygenAutoCmd_tested (l : Latch) :
    (keygenAutoCmd l).tested =
      match keyBase (opS l 0) (opS l 1) with
      | .error _ => 0
      | .ok _ phi => (chooseE phi (budgetOf l)).tested := by
  unfold keygenAutoCmd
  dsimp only
  cases keyBase (opS l 0) (opS l 1) with
  | error code => rfl
  | ok n phi =>
    dsimp only
    cases chooseE phi (budgetOf l) with
    | found e k => dsimp only; cases extInverse e phi <;> rfl
    | exhausted k => rfl
    | overBudget k => rfl

/-- A command of one scan counts at most `BUDGET` candidates (R33). -/
theorem outcomeOf_tested_le_budget {i : Instr} {l : Latch} (n : Nat) (hb : budgetOf l ≠ 0)
    (hi : i ∈ [.choosee, .keygenAuto, .factorize, .recoverd]) : (outcomeOf n i l).tested ≤ budgetOf l := by
  simp only [List.mem_cons, List.not_mem_nil, or_false] at hi
  rcases hi with rfl | rfl | rfl | rfl
  · exact (chooseeCmd_tested l).trans_le (scan_tested_le_budget hb)
  · refine (keygenAutoCmd_tested l).trans_le ?_
    split
    · exact Nat.zero_le _
    · exact scan_tested_le_budget hb
  · exact (factorizeCmd_tested l).trans_le (scan_tested_le_budget hb)
  · exact (recoverdCmd_tested l).trans_le (scan_tested_le_budget hb)

/-- CRACK counts the candidates of its two scans, each within `BUDGET` (R33). -/
theorem crackCmd_tested_le {n : Nat} {l : Latch} (hb : budgetOf l ≠ 0) :
    (crackCmd n l).tested ≤ 2 * budgetOf l := by
  unfold crackCmd
  dsimp only
  split_ifs
  · have hf : (factorScan (opS l 1) (budgetOf l)).tested ≤ budgetOf l := scan_tested_le_budget hb
    generalize factorScan (opS l 1) (budgetOf l) = r at hf
    cases r with
    | overBudget k => exact hf.trans (by omega)
    | exhausted k => exact hf.trans (by omega)
    | found p k =>
      have hr : (recoverScan (opS l 0) (totient p (opS l 1 / p)) (budgetOf l)).tested ≤ budgetOf l :=
        scan_tested_le_budget hb
      dsimp only
      generalize recoverScan (opS l 0) (totient p (opS l 1 / p)) (budgetOf l) = r' at hr
      cases r' with
      | overBudget j => exact (Nat.add_le_add hf hr).trans (by omega)
      | exhausted j => exact (Nat.add_le_add hf hr).trans (by omega)
      | found d j =>
        exact (cipherMap_tested_le _ _ _ _ _ _).trans ((Nat.add_le_add hf hr).trans (by omega))
  · exact Nat.zero_le _

/-- Settles O33: ITERS is the count of the command's outcome, which its scans keep within the budget. -/
theorem budgetCapsCandidates : Obligations.BudgetCapsCandidates := by
  intro i s t h
  refine ⟨fun hi => ?_, fun hb hi => ?_, ?_⟩
  · rw [iters_of_exec h, outcomeOf_tested_eq_zero _ _ hi]
    rfl
  · exact (toNat_iters_le_of_exec h).trans (outcomeOf_tested_le_budget _ hb hi)
  · rintro hb rfl
    exact (toNat_iters_le_of_exec h).trans (crackCmd_tested_le hb)

end Sys2Proof.Machine

/-! The register map and the host's accesses to it (10_state.md R23 to R26, R35 to R41, R44): where an access
arrives, and what the words of the control and status registers hold. -/

namespace Sys2Proof.Machine

/-! ### Where an access arrives -/

/-- Settles O7: one lemma for registers and one for symbol words. -/
theorem registerMapRoundTrip : Obligations.RegisterMapRoundTrip := by
  intro n off t
  cases t with
  | reg r =>
    rw [decodeOffset_reg]
    exact ⟨fun h => ⟨h, fun i hi => by cases hi⟩, fun h => h.1⟩
  | sym i =>
    rw [decodeOffset_sym]
    refine and_congr_right fun _ => ⟨fun hi j hj => ?_, fun h => h i rfl⟩
    cases hj
    exact hi

theorem busAccess_reg (s : State) (r : Reg) (kind : AccessKind) :
    busAccess s ⟨s.build.base + regOffset r, 8, kind⟩ =
      match kind with
      | .read => readTarget s (.reg r)
      | .write v => writeTarget s (.reg r) v := by
  have hlt := (regOffset_lt r).1
  exact busAccess_target (t := .reg r) kind (decodeOffset_reg.mpr rfl) (by simp only [targetOffset]; omega)

/-- A 64-bit write at a register's offset is a write of that register, with a normal response. -/
theorem busAccess_memWrite_reg (s : State) (r : Reg) (v : Word) :
    busAccess s (memWrite s.build (regOffset r) v) = { writeRegister s r v with resp := some .writeOk } :=
  busAccess_reg s r (.write v)

/-- A 64-bit read at a register's offset is answered with its value. -/
theorem busAccess_memRead_reg (s : State) (r : Reg) :
    busAccess s (memRead s.build (regOffset r)) = { s with resp := some (.readOk (readRegister s r)) } :=
  busAccess_reg s r .read

theorem memWords_le_of_buildLegal {s : State} (h : BuildLegal s) : s.build.memWords ≤ 7680 := by
  obtain ⟨_, hle, _⟩ := of_decide_eq_true h
  exact hle

theorem busAccess_sym {s : State} {i : Nat} (kind : AccessKind) (hb : BuildLegal s)
    (hi : i < s.build.memWords) :
    busAccess s ⟨s.build.base + symOffset i, 8, kind⟩ =
      match kind with
      | .read => readTarget s (.sym i)
      | .write v => writeTarget s (.sym i) v := by
  have hle := memWords_le_of_buildLegal hb
  exact busAccess_target (t := .sym i) kind (decodeOffset_sym.mpr ⟨rfl, hi⟩)
    (by simp only [targetOffset, symOffset]; omega)

/-- A 64-bit write at a symbol word's offset writes the word unless BUSY, with a normal response. -/
theorem busAccess_memWrite_sym {s : State} {i : Nat} (v : Word) (hb : BuildLegal s)
    (hi : i < s.build.memWords) :
    busAccess s (memWrite s.build (symOffset i) v) =
      { writeUnlessBusy s (fun s => { s with mem := s.mem.storeSym i v }) with resp := some .writeOk } :=
  busAccess_sym (.write v) hb hi

/-- A 64-bit read of a written symbol word is answered with its value. -/
theorem busAccess_memRead_sym {s : State} {i : Nat} {w : Word} (hb : BuildLegal s)
    (hi : i < s.build.memWords) (hw : s.mem.loadSym i = some w) :
    busAccess s (memRead s.build (symOffset i)) = { s with resp := some (.readOk w) } := by
  refine (busAccess_sym .read hb hi).trans ?_
  simp only [readTarget, hw]

/-! ### Writes -/

theorem writeUnlessBusy_of_busy {s : State} {l : Latch} (h : s.engine = .busy l) (write : State → State) :
    writeUnlessBusy s write = { s with werr := true } :=
  if_pos ((busy_iff s).mpr ⟨l, h⟩)

theorem writeUnlessBusy_of_idle {s : State} (h : s.engine = .idle) (write : State → State) :
    writeUnlessBusy s write = write s :=
  if_neg (by simp [(not_busy_iff s).mpr h])

/-- Settles O37: the guarded writes are dropped, CTRL and STATUS have no guard, and reads need none. -/
theorem writesWhileBusyAreDropped : Obligations.WritesWhileBusyAreDropped := by
  intro s l hbuild hbusy
  have hdrop := writeUnlessBusy_of_busy hbusy
  refine ⟨?_, fun v => busAccess_memWrite_reg s .ctrl v, fun v => busAccess_memWrite_reg s .status v,
    busAccess_memRead_reg s, fun i w => busAccess_memRead_sym hbuild⟩
  rintro t v (rfl | rfl | ⟨i, rfl⟩ | ⟨i, hi, rfl⟩)
  · refine (busAccess_memWrite_reg s .cmd v).trans ?_
    rw [writeRegister, hdrop]
  · refine (busAccess_memWrite_reg s .budget v).trans ?_
    rw [writeRegister, hdrop]
  · refine (busAccess_memWrite_reg s (.op i) v).trans ?_
    rw [writeRegister, hdrop]
  · refine (busAccess_memWrite_sym v hbuild hi).trans ?_
    rw [hdrop]

/-- Settles O39: `writeRegister` leaves the state as it is. -/
theorem readOnlyWritesIgnored : Obligations.ReadOnlyWritesIgnored := by
  intro s r v hr
  have hignored : writeRegister s r v = s := by
    rcases hr with rfl | rfl | rfl | rfl | ⟨i, rfl⟩ <;> rfl
  rw [busAccess_memWrite_reg, hignored]

/-- Settles O44: clearing a flag by `&& !bit` is the choice the statement spells out. -/
theorem statusWriteClears : Obligations.StatusWriteClears := by
  intro s v
  have hclear : ∀ flag bit : Bool, (flag && !bit) = if bit then false else flag := by decide
  refine (busAccess_memWrite_reg s .status v).trans ?_
  simp only [writeRegister, writeStatus, hclear]

/-! ### The words of the registers -/

/-- Bits `[at, at + len)` of a word below `2^64`. -/
theorem toNat_extractLsb'_ofNat {n : Nat} (at_ len : Nat) (h : n < 2 ^ 64) :
    ((BitVec.ofNat 64 n).extractLsb' at_ len).toNat = n / 2 ^ at_ % 2 ^ len := by
  rw [BitVec.extractLsb'_toNat, BitVec.toNat_ofNat, Nat.mod_eq_of_lt h, Nat.shiftRight_eq_div_pow]

/-- Bit `i` of a word below `2^64`. -/
theorem getLsbD_ofNat_eq {n i : Nat} {b : Bool} (hi : i < 64) (h : n / 2 ^ i % 2 = b.toNat) :
    (BitVec.ofNat 64 n).getLsbD i = b := by
  rw [BitVec.getLsbD_ofNat, Nat.testBit_eq_decide_div_mod_eq, h]
  cases b <;> simp [hi]

/-- Settles O4: each field is read off the sum that makes the word. -/
theorem idAndCapFields : Obligations.IdAndCapFields := by
  intro s hlt
  have hfield := fun at_ len => toNat_extractLsb'_ofNat at_ len
    (show s.build.memWords % 2 ^ 32 + 64 * 2 ^ 32 + 8 * 2 ^ 40 + 8 * 2 ^ 48 + 1 * 2 ^ 56 < 2 ^ 64 by omega)
  refine ⟨rfl, (hfield 0 32).trans ?_, BitVec.eq_of_toNat_eq ((hfield 32 8).trans ?_),
    BitVec.eq_of_toNat_eq ((hfield 40 8).trans ?_), BitVec.eq_of_toNat_eq ((hfield 48 8).trans ?_),
    BitVec.eq_of_toNat_eq ((hfield 56 8).trans ?_)⟩
  · omega
  · show _ = 64; omega
  · show _ = 8; omega
  · show _ = 8; omega
  · show _ = 1; omega

theorem ErrCode.number_lt (c : ErrCode) : c.number < 12 := by
  cases c <;> decide

theorem Stage.number_lt (st : Stage) : st.number < 6 := by
  cases st <;> decide

/-- `STATUS.ERR` is ERRCODE not 0 (10_state.md R31). -/
theorem err_eq (s : State) : s.err = decide (s.errCode ≠ .ok) := by
  unfold State.err
  cases s.errCode <;> rfl

/-- Settles O43: each field is read off the sum that makes the word, every summand being below the next
one's place. -/
theorem statusFields : Obligations.StatusFields := by
  intro s
  have hbusy := Bool.toNat_lt s.busy
  have hdone := Bool.toNat_lt s.done
  have hwerr := Bool.toNat_lt s.werr
  have herr := Bool.toNat_lt s.err
  have hcode := s.errCode.number_lt
  have hstage := s.errStage.number_lt
  have hfield := fun at_ len => toNat_extractLsb'_ofNat at_ len
    (show s.busy.toNat + 2 * s.done.toNat + 4 * s.werr.toNat + 8 * s.err.toNat
      + 0x100 * s.errCode.number + 0x10000 * s.errStage.number < 2 ^ 64 by omega)
  refine ⟨getLsbD_ofNat_eq (by decide) ?_, getLsbD_ofNat_eq (by decide) ?_,
    getLsbD_ofNat_eq (by decide) ?_, (getLsbD_ofNat_eq (by decide) ?_).trans (err_eq s),
    BitVec.eq_of_toNat_eq ((hfield 4 4).trans ?_), (hfield 8 8).trans ?_, (hfield 16 4).trans ?_,
    BitVec.eq_of_toNat_eq ((hfield 20 44).trans ?_)⟩
  · omega
  · omega
  · omega
  · omega
  · show _ = 0; omega
  · omega
  · omega
  · show _ = 0; omega

/-- CTRL reads IE in bit 0 and 0 elsewhere (10_state.md R25). -/
theorem ctrlWord_fields (s : State) : (ctrlWord s).getLsbD 0 = s.ie ∧ (ctrlWord s).extractLsb' 1 63 = 0 := by
  unfold ctrlWord
  cases s.ie <;> decide

/-- Settles O45: with SRST 0 `writeCtrl` takes its second branch. -/
theorem ctrlWriteSetsEnable : Obligations.CtrlWriteSetsEnable := by
  intro s v hsrst
  refine ⟨(busAccess_memWrite_reg s .ctrl v).trans ?_, ctrlWord_fields s⟩
  simp only [writeRegister, writeCtrl, hsrst, Bool.false_eq_true, if_false]

/-! ### The interrupt -/

theorem irq_of_ie_false {s : State} (h : s.ie = false) : s.irq = false := by
  simp [State.irq, h]

theorem irq_of_done_false {s : State} (h : s.done = false) : s.irq = false := by
  simp [State.irq, h]

theorem Completes.ie_eq {s t : State} (h : Completes s t) : t.ie = s.ie := by
  cases h <;> rfl

/-- `irq` after any completion is IE (10_state.md R39). -/
theorem Completes.irq_eq {s t : State} (h : Completes s t) : t.irq = s.ie := by
  simp [State.irq, h.done_set, h.ie_eq]

/-- Either bit of a CTRL write that lowers IE: SRST set, or IE clear (10_state.md R25). -/
theorem writeCtrl_ie_false {s : State} {v : Word} (h : v.getLsbD 1 = true ∨ v.getLsbD 0 = false) :
    (writeCtrl s v).ie = false := by
  unfold writeCtrl
  split
  · rfl
  · next hsrst => exact h.resolve_left hsrst

/-- Settles O47: a completion sets DONE and keeps IE; every other clause clears one of the two. -/
theorem interruptFollowsDone : Obligations.InterruptFollowsDone := by
  refine ⟨fun i s t h => (exec_completes h).irq_eq, fun s v hv => irq_of_done_false ?_,
    fun s w hidle => irq_of_done_false ?_, fun s v hie => irq_of_ie_false ?_,
    fun s v hsrst => irq_of_ie_false ?_, fun s => irq_of_done_false rfl, fun s => rfl⟩
  · refine (congrArg State.done (busAccess_memWrite_reg s .status v)).trans ?_
    simp [writeRegister, hv]
  · refine (congrArg State.done (busAccess_memWrite_reg s .cmd w)).trans ?_
    rw [writeRegister, writeUnlessBusy_of_idle hidle, startCommand_done]
  · exact (congrArg State.ie (busAccess_memWrite_reg s .ctrl v)).trans (writeCtrl_ie_false (.inr hie))
  · exact (congrArg State.ie (busAccess_memWrite_reg s .ctrl v)).trans (writeCtrl_ie_false (.inl hsrst))

end Sys2Proof.Machine

/-! The symbol memory and the host's accesses to it (20_memory.md): what every step keeps of the memory, what an
access outside the window, at no target or of an unwritten word does, that a read has no side effect, and that
a repeated command gives its outcome again. -/

namespace Sys2Proof.Machine

/-! ### What every step keeps -/

/-- Settles O53: a step writes symbols by a host write or a completion, each only whole words inside the memory,
or clears them all by the power-on reset. -/
theorem stepKeepsMemoryWhole : Obligations.StepKeepsMemoryWhole :=
  fun _ _ hs h => ⟨step_keeps_memoryWhole hs h, step_build h⟩

/-! ### A repeated command -/

/-- A command that does not use the symbol memory writes no symbol. -/
theorem outcomeOf_writes_eq_nil {n : Nat} {i : Instr} {l : Latch} {rs : List Int} {ws : List (Nat × Int)}
    {k : Nat} (hi : usesSymbols i = false) (ho : outcomeOf n i l = .ok rs ws k) : ws = [] := by
  have hl := outcome_legal n i l
  rw [ho] at hl
  obtain ⟨_, _, ⟨_, hws⟩ | ⟨hsym, _⟩⟩ := hl
  · exact hws
  · exact absurd (hi.symm.trans hsym) (by decide)

/-- Restarting a command after its success and completing it with the same outcome leaves the same state. -/
theorem okState_startCommand_okState (s : State) (w : Word) (res : Bank) (mem : Memory) (k : Nat) :
    okState (startCommand (okState (startCommand s w) res mem k) w) res mem k =
      okState (startCommand s w) res mem k := rfl

/-- Restarting a command after its error and completing it with the same outcome leaves the same state. -/
theorem errState_startCommand_errState (s : State) (w : Word) (code : ErrCode) (stage : Stage) (info k : Nat) :
    errState (startCommand (errState (startCommand s w) code stage info k) w) code stage info k =
      errState (startCommand s w) code stage info k := rfl

/-- Settles O35: the completion leaves operands, BUDGET and symbols as they were, so the second start takes the
same latch, and committing the outcome again rewrites the same values. -/
theorem repeatedCommandRepeatsItsOutcome : Obligations.RepeatedCommandRepeatsItsOutcome := by
  intro i s t hi h
  rw [exec_eq_commit] at h ⊢
  rcases commit_next h with ⟨rs, ws, k, ho, rfl⟩ | ⟨code, stage, info, k, ho, rfl⟩
  · obtain rfl := outcomeOf_writes_eq_nil hi ho
    refine (congrArg _ ho).trans ((commit_ok _ rs [] k).trans ?_)
    exact congrArg _ (okState_startCommand_okState s (encode i) (Bank.ofResults rs) s.mem k)
  · refine (congrArg _ ho).trans ((commit_err _ code stage info k).trans ?_)
    exact congrArg _ (errState_startCommand_errState s (encode i) code stage info k)

/-! ### An access outside the window, at no target, and at a target -/

theorem windowOffset_outside {b : Build} {addr : Nat} (h : addr < b.base ∨ b.base + 65536 ≤ addr) :
    windowOffset b addr = none :=
  if_neg (by omega)

theorem windowOffset_base_add (b : Build) {off : Nat} (h : off < 65536) :
    windowOffset b (b.base + off) = some off := by
  unfold windowOffset
  rw [if_pos (by omega), Nat.add_sub_cancel_left]

theorem busAccess_of_outside {s : State} {a : Access} (hw : windowOffset s.build a.addr = none) :
    busAccess s a = { s with resp := none } := by
  simp only [busAccess, hw]

theorem busAccess_of_no_target {s : State} {a : Access} {off : Nat}
    (hw : windowOffset s.build a.addr = some off) (ht : accessTarget s.build.memWords off a.bytes = none) :
    busAccess s a = errorResponse s a.kind := by
  simp only [busAccess, hw, ht]

theorem busAccess_read_of_target {s : State} {addr bytes off : Nat} {t : Target}
    (hw : windowOffset s.build addr = some off) (ht : accessTarget s.build.memWords off bytes = some t) :
    busAccess s ⟨addr, bytes, .read⟩ = readTarget s t := by
  simp only [busAccess, hw, ht]

/-- Settles O59: such an address has no offset in the window. -/
theorem accessOutsideWindowIsNotTheBlocks : Obligations.AccessOutsideWindowIsNotTheBlocks :=
  fun _ _ h => busAccess_of_outside (windowOffset_outside h)

/-! ### The error response -/

/-- Misaligned and reserved offsets name nothing (20_memory.md R65). -/
theorem decodeOffset_eq_none {n off : Nat}
    (h : off % 8 ≠ 0 ∨ (0x00C0 ≤ off ∧ off < 0x1000) ∨ 0x1000 + 8 * n ≤ off) : decodeOffset n off = none := by
  rw [Option.eq_none_iff_forall_ne_some]
  intro t ht
  cases t with
  | reg r =>
    have hreg := regOffset_lt r
    rw [decodeOffset_reg] at ht
    omega
  | sym i =>
    rw [decodeOffset_sym, symOffset] at ht
    omega

theorem accessTarget_eq_none {n off bytes : Nat}
    (h : bytes ≠ 8 ∨ off % 8 ≠ 0 ∨ (0x00C0 ≤ off ∧ off < 0x1000) ∨ 0x1000 + 8 * n ≤ off) :
    accessTarget n off bytes = none := by
  unfold accessTarget
  split
  · next hbytes => exact decodeOffset_eq_none (h.resolve_left (not_not.mpr hbytes))
  · rfl

/-- Settles O41: an access inside the window that names no target is answered by `errorResponse`. -/
theorem badAccessGetsErrorResponse : Obligations.BadAccessGetsErrorResponse := by
  intro s off bytes v hoff hbad
  have herr : ∀ kind, busAccess s ⟨s.build.base + off, bytes, kind⟩ = errorResponse s kind := fun _ =>
    busAccess_of_no_target (windowOffset_base_add s.build hoff) (accessTarget_eq_none hbad)
  exact ⟨herr (.write v), herr .read, rfl⟩

/-! ### Reads -/

/-- A read of an unwritten symbol word takes the next draw (20_memory.md R61). -/
theorem readTarget_sym_unwritten {s : State} {i : Nat} (h : s.mem.loadSym i = none) :
    readTarget s (.sym i) =
      { s with resp := some (.readOk (Config.draw s.draws)), draws := s.draws + 1 } := by
  simp only [readTarget, h]

/-- A read of a target changes only the response and the count of draws. -/
theorem readTarget_answered (s : State) (t : Target) :
    ∃ v draws, readTarget s t = { s with resp := some (.readOk v), draws := draws } := by
  cases t with
  | reg r => exact ⟨readRegister s r, s.draws, rfl⟩
  | sym i =>
    cases h : s.mem.loadSym i with
    | some w => exact ⟨w, s.draws, by simp only [readTarget, h]⟩
    | none => exact ⟨_, _, readTarget_sym_unwritten h⟩

/-- Settles O40: the three places a read can arrive at, of which only the one that names no target sets WERR. -/
theorem readsHaveNoSideEffects : Obligations.ReadsHaveNoSideEffects := by
  intro s addr bytes
  cases hw : windowOffset s.build addr with
  | none => exact ⟨s.werr, s.draws, none, busAccess_of_outside hw, fun h => absurd rfl h⟩
  | some off =>
    cases ht : accessTarget s.build.memWords off bytes with
    | none => exact ⟨true, s.draws, some .readError, busAccess_of_no_target hw ht, fun _ => rfl⟩
    | some t =>
      obtain ⟨v, draws, hread⟩ := readTarget_answered s t
      exact ⟨s.werr, draws, some (.readOk v), (busAccess_read_of_target hw ht).trans hread,
        fun h => absurd rfl h⟩

/-- Settles O42: the read draws, and while IDLE the write takes place and a stored word is loaded again. -/
theorem unwrittenWordReadsAsDraw : Obligations.UnwrittenWordReadsAsDraw := by
  intro s i hbuild hi hunwritten
  refine ⟨(busAccess_sym .read hbuild hi).trans (readTarget_sym_unwritten hunwritten), fun v hidle => ?_⟩
  rw [busAccess_memWrite_sym v hbuild hi, writeUnlessBusy_of_idle hidle]
  simp only [loadSym_storeSym_same, Option.isSome_some]

end Sys2Proof.Machine

/-! Command words and host lines (30_encoding.md): decoding and encoding agree on words and on bytes, an illegal
word's completion, the turn of WAIT, and the bus access of each host line. -/

namespace Sys2Proof

/-! ### Command words -/

theorem encode_toNat (i : Instr) : (encode i).toNat = (opcode i).toNat :=
  BitVec.toNat_setWidth_of_le (by decide)

theorem decodeOpcode_opcode (i : Instr) : decodeOpcode (opcode i).toNat = .command i := by
  cases i <;> rfl

theorem opcode_of_decodeOpcode {n : Nat} {i : Instr} (h : decodeOpcode n = .command i) :
    (opcode i).toNat = n := by
  unfold decodeOpcode at h
  split at h <;> cases h <;> rfl

/-- A word is a command exactly when it is that command's word (R91). -/
theorem decode_eq_command_iff {w : Word} {i : Instr} : decode w = .command i ↔ w = encode i := by
  unfold decode
  constructor
  · intro h
    split at h
    · cases h
    · next hrsvd =>
      have hop := opcode_of_decodeOpcode h
      apply BitVec.eq_of_toNat_eq
      rw [encode_toNat]
      omega
  · rintro rfl
    have hlt := (opcode i).isLt
    rw [encode_toNat, if_neg (by omega), Nat.mod_eq_of_lt hlt, decodeOpcode_opcode]

/-- A word that is no command is ILLEGAL. -/
theorem decode_ne_command_iff {w : Word} : (∀ i, decode w ≠ .command i) ↔ ∃ why, decode w = .illegal why := by
  cases decode w with
  | command i => simp
  | illegal why => simp

/-- A command's word has its reserved bits zero and a listed OPCODE (R90, R92). -/
theorem encode_fields (i : Instr) :
    (encode i).extractLsb' 8 56 = 0 ∧
      (encode i).toNat % 256 ∈
        [0x01, 0x02, 0x03, 0x04, 0x05, 0x10, 0x11, 0x20, 0x21, 0x30, 0x31, 0x32, 0x33] := by
  cases i <;> decide

/-! ### Command words as bytes -/

/-- The bytes of a list's value are the list again. -/
theorem leBytes_ofLeBytes : ∀ bs : List Byte, leBytes bs.length (ofLeBytes bs) = bs
  | [] => rfl
  | b :: bs => by
    have hlt := b.isLt
    have hhead : BitVec.ofNat 8 (b.toNat + 256 * ofLeBytes bs) = b :=
      BitVec.eq_of_toNat_eq (by rw [BitVec.toNat_ofNat]; omega)
    have htail : (b.toNat + 256 * ofLeBytes bs) / 256 = ofLeBytes bs := by omega
    rw [ofLeBytes, List.length_cons, leBytes, hhead, htail, leBytes_ofLeBytes bs]

theorem ofLeBytes_lt : ∀ bs : List Byte, ofLeBytes bs < 256 ^ bs.length
  | [] => by decide
  | b :: bs => by
    have hlt := b.isLt
    have ih := ofLeBytes_lt bs
    rw [ofLeBytes, List.length_cons, pow_succ]
    omega

/-- Eight bytes are the bytes of their word. -/
theorem leBytes_word {bs : List Byte} (h : bs.length = 8) :
    leBytes 8 (BitVec.ofNat 64 (ofLeBytes bs)).toNat = bs := by
  have hlt : ofLeBytes bs < 256 ^ 8 := h ▸ ofLeBytes_lt bs
  rw [BitVec.toNat_ofNat, show 2 ^ 64 = 256 ^ 8 by decide, Nat.mod_eq_of_lt hlt, ← h, leBytes_ofLeBytes]

/-- The bytes of a word decode as the word, whatever follows them. -/
theorem decodeBytes_leBytes_append (w : Word) (rest : List Byte) :
    decodeBytes (leBytes 8 w.toNat ++ rest) = (decode w, rest) := by
  have hlen : (leBytes 8 w.toNat).length = 8 := leBytes_length 8 _
  unfold decodeBytes
  rw [if_neg (by rw [List.length_append]; omega), List.take_left' hlen, List.drop_left' hlen, ofLeBytes_word]

/-- Bytes are too few for a word, or the bytes of a word and what follows them. -/
theorem length_lt_or_exists_word (bs : List Byte) :
    bs.length < 8 ∨ ∃ (w : Word) (rest : List Byte), bs = leBytes 8 w.toNat ++ rest := by
  refine (Nat.lt_or_ge bs.length 8).imp_right fun h => ⟨BitVec.ofNat 64 (ofLeBytes (bs.take 8)), bs.drop 8, ?_⟩
  rw [leBytes_word (List.length_take_of_le h), List.take_append_drop]

/-- Settles O6: any eight bytes are those of a word, on which `decode` and `encode` are inverse. -/
theorem decodeEncodeAgreeOnBytes : Obligations.DecodeEncodeAgreeOnBytes := by
  refine ⟨fun i rest _ => ?_, fun bs rest i h => ?_⟩
  · rw [decodeBytes_leBytes_append, decode_eq_command_iff.mpr rfl]
  · rcases length_lt_or_exists_word bs with hshort | ⟨w, tail, rfl⟩
    · rw [decodeBytes, if_pos hshort] at h
      cases h
    · rw [decodeBytes_leBytes_append, Prod.mk.injEq, decode_eq_command_iff] at h
      obtain ⟨rfl, rfl⟩ := h
      rfl

/-- Settles O8: the thirteen words are those of the commands; the illegal ones are computed. -/
theorem sampleWordsDecode : Obligations.SampleWordsDecode := by
  have hword : ∀ i, decode (encode i) = .command i := fun _ => decode_eq_command_iff.mpr rfl
  exact ⟨hword .gcd, hword .coprime, hword .modpow, hword .modinv, hword .choosee, hword .keygen,
    hword .keygenAuto, hword .encrypt, hword .decrypt, hword .factorize, hword .totient, hword .recoverd,
    hword .crack, by decide, by decide, by decide, by decide⟩

namespace Machine

/-! ### Illegal words -/

/-- The engine completes a latched word that is no command with E_ILLEGAL_CMD (R94). -/
theorem engineTurn_of_not_command {s : State} {l : Latch} (hb : s.engine = .busy l)
    (hd : ∀ i, l.cmd ≠ encode i) : engineTurn s = .next (errState s .illegalCmd .none 0 0) := by
  obtain ⟨why, hill⟩ := decode_ne_command_iff.mp fun i hi => hd i (decode_eq_command_iff.mp hi)
  simp only [engineTurn, hb, hill, completeIllegal, commit_raise]

/-- Settles O5: the words that decode are the thirteen of `encode`, which zero-extends the opcode. -/
theorem decodeExactlyTheTable : Obligations.DecodeExactlyTheTable := by
  refine ⟨fun i => ?_, fun _ _ => decode_eq_command_iff, fun _ => decode_ne_command_iff,
    fun _ _ => engineTurn_of_not_command⟩
  cases i <;> decide

/-- Settles O10: no command's word has a reserved bit or an unlisted OPCODE, so the word is completed as illegal. -/
theorem illegalWordCompletes : Obligations.IllegalWordCompletes := by
  intro s w hw
  have hne : ∀ i, w ≠ encode i := by
    rintro i rfl
    obtain ⟨hrsvd, hop⟩ := encode_fields i
    exact hw.elim (fun h => h hrsvd) (fun h => h hop)
  have hturn := engineTurn_of_not_command (startCommand_engine s w) hne
  refine ⟨rfl, hturn, fun t ht => ?_⟩
  cases hturn.symm.trans ht
  rfl

/-! ### WAIT -/

/-- The host code of WAIT tests the BUSY bit of the STATUS it read (R96). -/
theorem waitsAgain_status (s : State) : waitsAgain (some (.readOk (readRegister s .status))) = s.busy :=
  (statusFields s).1

/-- Settles O49: the access is a read of STATUS, whose bit 0 is BUSY. -/
theorem waitRepeatsWhileBusy : Obligations.WaitRepeatsWhileBusy := by
  intro s rest hp
  have hread : busAccess s (hostOpAccess s.build .wait) =
      { s with resp := some (.readOk (readRegister s .status)) } := busAccess_memRead_reg s .status
  simp only [hostTurn, hp, hread, programAfter, waitsAgain_status]

/-! ### Host lines -/

/-- SETOPS of values given by register, for registers that follow one another from `i` on, writes each of them. -/
theorem asmSetopsFrom_map (v : Fin 8 → Int) : ∀ (js : List (Fin 8)) (i : Nat),
    js.map Fin.val = List.range' i js.length →
    asmSetopsFrom i (js.map v) = js.map fun j => HostOp.wr (.op j) (v j)
  | [], _, _ => rfl
  | j :: js, i, h => by
    rw [List.map_cons, List.length_cons, List.range'_succ, List.cons.injEq] at h
    obtain ⟨rfl, hjs⟩ := h
    rw [List.map_cons, asmSetopsFrom, dif_pos j.isLt, asmSetopsFrom_map v js _ hjs]
    rfl

/-- Settles O50: the forms are `hostOpAccess` read off; the registers SETOPS writes follow one another from 0. -/
theorem hostLineEncodings : Obligations.HostLineEncodings := by
  refine ⟨fun b r i v a => ⟨rfl, rfl, rfl, rfl, rfl⟩, fun i => ⟨?_, rfl⟩, rfl, rfl, rfl, fun v k _ => ?_,
    fun b => ⟨rfl, rfl, rfl, rfl⟩⟩
  · rw [asmCmd, encode_toNat]
  · rw [List.ofFn_eq_map, List.ofFn_eq_map, ← List.map_take, ← List.map_take]
    refine asmSetopsFrom_map v _ 0 ?_
    rw [List.map_take, List.map_coe_finRange_eq_range, List.take_range, List.range_eq_range', List.length_take,
      List.length_finRange]

end Machine

end Sys2Proof

/-! The ModularArithmetic commands (40_modular_arithmetic.md R111 to R119): the outcome each computes from its
operands, and what a BUSY engine completes with. -/

namespace Sys2Proof.Machine

/-! ### A command on the latch -/

/-- While BUSY the engine commits what the command computes from the latch (00_scope.md R14). -/
theorem exec_of_busy {s : State} {l : Latch} (i : Instr) (hb : s.engine = .busy l) :
    exec i s = commit s (outcomeOf s.build.memWords i l) := by
  rw [exec_eq_commit, State.inputs, hb]

theorem exec_of_ok {i : Instr} {s : State} {l : Latch} {rs : List Int} {ws : List (Nat × Int)} {k : Nat}
    (hb : s.engine = .busy l) (ho : outcomeOf s.build.memWords i l = .ok rs ws k) :
    exec i s = .next (okState s (Bank.ofResults rs) (s.mem.commit ws) k) := by
  rw [exec_of_busy i hb, ho, commit_ok]

/-- A success of one result that writes no symbol. -/
theorem exec_of_ok_one {i : Instr} {s : State} {l : Latch} {v : Int} {k : Nat} (hb : s.engine = .busy l)
    (ho : outcomeOf s.build.memWords i l = .ok [v] [] k) :
    exec i s = .next (okState s (Bank.one (enc64 v)) s.mem k) :=
  exec_of_ok hb ho

theorem exec_of_err {i : Instr} {s : State} {l : Latch} {code : ErrCode} {stage : Stage} {info k : Nat}
    (hb : s.engine = .busy l) (ho : outcomeOf s.build.memWords i l = .err code stage info k) :
    exec i s = .next (errState s code stage info k) := by
  rw [exec_of_busy i hb, ho, commit_err]

/-! ### GCD and COPRIME -/

/-- GCD raises E_RANGE when the gcd does not fit a result register (R112). -/
theorem gcdCmd_eq (l : Latch) :
    gcdCmd l = if (Int.gcd (opS l 0) (opS l 1) : Int) > maxS64 then raise .range
      else complete [(Int.gcd (opS l 0) (opS l 1) : Int)] := by
  rw [gcdCmd, euclid_eq_gcd]

theorem coprimeCmd_eq (l : Latch) :
    coprimeCmd l = complete [if Int.gcd (opS l 0) (opS l 1) = 1 then 1 else 0] := by
  rw [coprimeCmd, euclid_eq_gcd]

/-- The multiples of `2^63` among the signed operands. -/
theorem two_pow_dvd_opS_iff (l : Latch) (i : Fin 8) :
    (2 ^ 63 : Int) ∣ opS l i ↔ opS l i = 0 ∨ opS l i = -2 ^ 63 := by
  obtain ⟨hlo, hhi⟩ := opS_range l i
  unfold maxS64 at hhi
  omega

/-- The gcd divides an operand that is not 0, whose magnitude is at most `2^63`; of two zeros it is 0. -/
theorem gcd_opS_le (l : Latch) (i j : Fin 8) : Int.gcd (opS l i) (opS l j) ≤ 2 ^ 63 := by
  have hi := opS_range l i
  have hj := opS_range l j
  unfold maxS64 at hi hj
  by_cases h : opS l i = 0
  · rw [h, Int.gcd_zero_left]
    omega
  · have hle : Int.gcd (opS l i) (opS l j) ≤ (opS l i).natAbs := Nat.gcd_le_left _ (by omega)
    omega

/-- The three operand pairs whose gcd is `2^63` (R112). -/
theorem gcd_opS_eq_two_pow_iff (l : Latch) (i j : Fin 8) :
    Int.gcd (opS l i) (opS l j) = 2 ^ 63 ↔
      (opS l i = -2 ^ 63 ∧ opS l j = 0) ∨ (opS l i = 0 ∧ opS l j = -2 ^ 63) ∨
        (opS l i = -2 ^ 63 ∧ opS l j = -2 ^ 63) := by
  constructor
  · intro hg
    have hi : opS l i = 0 ∨ opS l i = -2 ^ 63 :=
      (two_pow_dvd_opS_iff l i).mp (by simpa [hg] using Int.gcd_dvd_left (opS l i) (opS l j))
    have hj : opS l j = 0 ∨ opS l j = -2 ^ 63 :=
      (two_pow_dvd_opS_iff l j).mp (by simpa [hg] using Int.gcd_dvd_right (opS l i) (opS l j))
    have hne : ¬ (opS l i = 0 ∧ opS l j = 0) := by
      rw [← Int.gcd_eq_zero_iff, hg]
      decide
    omega
  · rintro (⟨hi, hj⟩ | ⟨hi, hj⟩ | ⟨hi, hj⟩) <;> rw [hi, hj] <;> decide

/-- Settles O11: the gcd of two operands is at most `2^63`, one more than a result register holds. -/
theorem gcdCommand : Obligations.GcdCommand := by
  refine ⟨decode_eq_command_iff.mpr rfl, ?_⟩
  rintro s l _ _ hb rfl rfl
  refine ⟨fun hle => exec_of_ok_one hb ?_, fun heq => exec_of_err hb ?_, gcd_opS_le l 0 1,
    gcd_opS_eq_two_pow_iff l 0 1⟩
  · exact (gcdCmd_eq l).trans (if_neg (by unfold maxS64; omega))
  · exact (gcdCmd_eq l).trans (if_pos (by unfold maxS64; omega))

/-- Settles O12: COPRIME completes with a truth value, on every operand. -/
theorem coprimeCommand : Obligations.CoprimeCommand := by
  refine ⟨decode_eq_command_iff.mpr rfl, ?_⟩
  rintro s l _ _ hb rfl rfl
  rw [exec_of_ok_one (i := .coprime) hb (coprimeCmd_eq l), apply_ite enc64]
  rfl

/-! ### MODPOW -/

theorem modpowCmd_eq (l : Latch) :
    modpowCmd l = if opS l 2 ≤ 0 ∨ opS l 1 < 0 then raise .domain
      else complete [opS l 0 ^ (opS l 1).toNat % opS l 2] := by
  unfold modpowCmd
  by_cases hm : opS l 2 ≤ 0
  · simp [hm]
  · by_cases he : opS l 1 < 0
    · simp [he]
    · simp [hm, he, modpow_eq (not_le.mp hm)]

/-- Settles O13: MODPOW checks its operands, and `modpow` is the residue of the power. -/
theorem modpowCommand : Obligations.ModpowCommand := by
  refine ⟨decode_eq_command_iff.mpr rfl, ?_⟩
  rintro s l _ _ _ hb rfl rfl rfl
  refine ⟨fun hm he => exec_of_ok_one hb ?_, fun hbad => exec_of_err hb ?_⟩
  · exact (modpowCmd_eq l).trans (if_neg (by omega))
  · exact (modpowCmd_eq l).trans (if_pos hbad)

/-! ### MODINV -/

theorem modinvCmd_of_nonpos {l : Latch} (h : opS l 1 ≤ 0) : modinvCmd l = raise .domain :=
  if_pos h

theorem modinvCmd_of_one {l : Latch} (h : opS l 1 = 1) : modinvCmd l = raise .noInverse := by
  simp [modinvCmd, h]

/-- For `phi ≥ 2` MODINV answers what `ext_inverse` does (R117). -/
theorem modinvCmd_of_two_le {l : Latch} (h : 2 ≤ opS l 1) :
    modinvCmd l = (extInverse (opS l 0) (opS l 1)).elim (raise .noInverse) fun d => complete [d] := by
  have h0 : ¬ opS l 1 ≤ 0 := by omega
  have h1 : opS l 1 ≠ 1 := by omega
  unfold modinvCmd
  simp only [h0, h1, if_false]
  cases extInverse (opS l 0) (opS l 1) <;> rfl

/-- `e·0 mod phi` is never 1, so no inverse is 0 (R117). -/
theorem inverse_pos {e phi d : Int} (hd : 0 ≤ d) (h : (e * d) % phi = 1) : 0 < d := by
  refine lt_of_le_of_ne hd ?_
  rintro rfl
  simp at h

/-- Settles O14: for `phi ≥ 2` by what `ext_inverse` answers, and below that by the two checks before it. -/
theorem modinvCommand : Obligations.ModinvCommand := by
  refine ⟨decode_eq_command_iff.mpr rfl, ?_⟩
  rintro s l _ _ hb rfl rfl
  refine ⟨fun hphi hg => ?_, fun h => exec_of_err hb (modinvCmd_of_nonpos h),
    fun h => exec_of_err hb (modinvCmd_of_one h), fun hphi hg => exec_of_err hb ?_⟩
  · obtain ⟨d, hd⟩ := extInverse_of_coprime hphi hg
    obtain ⟨h0, hlt, hinv⟩ := extInverse_some (by omega) hd
    refine ⟨d, inverse_pos h0 hinv, hlt, hinv,
      fun d' h0' hlt' hinv' => inverse_unique hinv' hinv ⟨h0', hlt'⟩ ⟨h0, hlt⟩, exec_of_ok_one hb ?_⟩
    exact (modinvCmd_of_two_le hphi).trans (by rw [hd]; rfl)
  · exact (modinvCmd_of_two_le hphi).trans (by rw [(extInverse_eq_none hphi).mpr hg]; rfl)

/-! ### CHOOSEE -/

theorem FirstCoprime.unique {phi v w : Int} (hv : FirstCoprime phi v) (hw : FirstCoprime phi w) : v = w := by
  obtain ⟨hv2, _, hvg, hvmin⟩ := hv
  obtain ⟨hw2, _, hwg, hwmin⟩ := hw
  rcases lt_trichotomy v w with h | h | h
  · exact absurd hvg (hwmin v hv2 h)
  · exact h
  · exact absurd hwg (hvmin w hw2 h)

/-- Everything `choose_e` can answer (R118): the first coprime value within budget, the end of an empty range, or
a budget spent below the first coprime value. -/
theorem chooseE_cases (phi : Int) (budget : Nat) :
    (∃ v, FirstCoprime phi v ∧ (budget = 0 ∨ (v - 1).toNat ≤ budget) ∧
      chooseE phi budget = .found v (v - 1).toNat) ∨
    (phi ≤ 2 ∧ chooseE phi budget = .exhausted 0) ∨
    (budget ≠ 0 ∧ 2 < phi ∧ (∀ v, FirstCoprime phi v → budget < (v - 1).toNat) ∧
      chooseE phi budget = .overBudget budget) := by
  have h := chooseE_spec phi budget
  cases hr : chooseE phi budget with
  | found v k =>
    rw [hr] at h
    obtain ⟨h2, hlt, hg, hk, hmin, hb⟩ := h
    obtain rfl : k = (v - 1).toNat := by omega
    exact .inl ⟨v, ⟨h2, hlt, hg, hmin⟩, hb, rfl⟩
  | exhausted k =>
    rw [hr] at h
    obtain ⟨hphi, rfl⟩ := h
    exact .inr (.inl ⟨hphi, rfl⟩)
  | overBudget k =>
    rw [hr] at h
    obtain ⟨rfl, hb, hphi, hnone⟩ := h
    refine .inr (.inr ⟨hb, by omega, fun v ⟨h2, _, hg, _⟩ => ?_, rfl⟩)
    by_contra hle
    exact hnone v h2 (by omega) hg

theorem chooseE_found {phi v : Int} {budget : Nat} (hv : FirstCoprime phi v)
    (hb : budget = 0 ∨ (v - 1).toNat ≤ budget) : chooseE phi budget = .found v (v - 1).toNat := by
  rcases chooseE_cases phi budget with ⟨w, hw, _, hr⟩ | ⟨hphi, _⟩ | ⟨hb0, _, hover, _⟩
  · rw [hr, hv.unique hw]
  · obtain ⟨h2, hlt, _⟩ := hv
    omega
  · have := hover v hv
    omega

theorem chooseE_overBudget {phi v : Int} {budget : Nat} (hv : FirstCoprime phi v)
    (hb : ¬ (budget = 0 ∨ (v - 1).toNat ≤ budget)) : chooseE phi budget = .overBudget budget := by
  rcases chooseE_cases phi budget with ⟨w, hw, hadm, _⟩ | ⟨hphi, _⟩ | ⟨_, _, _, hr⟩
  · rw [hv.unique hw] at hb
    exact absurd hadm hb
  · obtain ⟨h2, hlt, _⟩ := hv
    omega
  · exact hr

theorem chooseE_exhausted {phi : Int} (budget : Nat) (hphi : phi ≤ 2) : chooseE phi budget = .exhausted 0 := by
  rw [chooseE, Int.toNat_eq_zero.mpr (by omega)]
  rfl

/-- An uncapped `choose_e` finds a value when `phi ≥ 3` (R118). -/
theorem exists_firstCoprime {phi : Int} (hphi : 3 ≤ phi) : ∃ v, FirstCoprime phi v := by
  rcases chooseE_cases phi 0 with ⟨v, hv, _⟩ | ⟨h, _⟩ | ⟨h, _⟩
  · exact ⟨v, hv⟩
  · omega
  · exact absurd rfl h

/-- Settles O15: one clause for each way `choose_e` ends. -/
theorem chooseeCommand : Obligations.ChooseeCommand := by
  refine ⟨decode_eq_command_iff.mpr rfl, ?_⟩
  rintro s l _ hb rfl
  refine ⟨exists_firstCoprime, fun v hv hadm => exec_of_ok_one hb ?_, fun v hv hadm => exec_of_err hb ?_,
    fun hphi => exec_of_err hb ?_⟩
  · rw [outcomeOf, chooseeCmd, chooseE_found hv hadm]
  · rw [outcomeOf, chooseeCmd, chooseE_overBudget hv hadm]
  · rw [outcomeOf, chooseeCmd, chooseE_exhausted _ hphi]

end Sys2Proof.Machine

/-! The KeyGenerator commands (41_keygen.md R140 to R143): the outcome each computes from its operands, one lemma
per way it ends, and the invariants of the key pair it returns. -/

namespace Sys2Proof.Machine

/-! ### The key pair -/

theorem keyBase_of_nonpos {p q : Int} (h : p ≤ 0 ∨ q ≤ 0) : keyBase p q = .error .domain :=
  if_pos h

theorem keyBase_of_gt {p q : Int} (hp : 0 < p) (hq : 0 < q) (h : p * q > maxS64) :
    keyBase p q = .error .range := by
  rw [keyBase, if_neg (by omega), if_pos h]

theorem keyBase_of_le {p q : Int} (hp : 0 < p) (hq : 0 < q) (h : p * q ≤ maxS64) :
    keyBase p q = .ok (p * q) ((p - 1) * (q - 1)) := by
  rw [keyBase, if_neg (by omega), if_neg (by omega)]

/-- The invariants of the KeyPair (R140); `phi ≥ 2` follows from the range of `e`. -/
structure KeyPair (p q n phi e d : Int) : Prop where
  p_pos : 1 ≤ p
  q_pos : 1 ≤ q
  modulus : n = p * q
  totient : phi = (p - 1) * (q - 1)
  coprime : Int.gcd e phi = 1
  inverse : (e * d) % phi = 1
  e_range : 1 ≤ e ∧ e < phi
  d_range : 0 ≤ d ∧ d < phi

/-- An exponent in range and coprime with `phi` has the inverse that completes a key pair: `ext_inverse` is never
NONE here (R142, R143). -/
theorem exists_keyPair {p q n phi e : Int} (hbase : keyBase p q = .ok n phi) (he : 1 ≤ e ∧ e < phi)
    (hg : Int.gcd e phi = 1) : ∃ d, extInverse e phi = some d ∧ KeyPair p q n phi e d := by
  have hspec := keyBase_spec p q
  rw [hbase] at hspec
  obtain ⟨hp, hq, hn, _, hphi, _⟩ := hspec
  obtain ⟨d, hd⟩ := extInverse_of_coprime (by omega) hg
  obtain ⟨hd0, hdlt, hinv⟩ := extInverse_some (by omega) hd
  exact ⟨d, hd, hp, hq, hn, hphi, hg, hinv, he, hd0, hdlt⟩

/-! ### KEYGEN -/

section
variable {l : Latch} {n phi : Int} {code : ErrCode}

theorem keygenCmd_of_error (hbase : keyBase (opS l 0) (opS l 1) = .error code) : keygenCmd l = raise code := by
  simp only [keygenCmd, hbase]

/-- KEYGEN rejects an exponent out of `[1, phi)` or not coprime with `phi` (R142). -/
theorem keygenCmd_of_invalid (hbase : keyBase (opS l 0) (opS l 1) = .ok n phi)
    (he : ¬ ((1 ≤ opS l 2 ∧ opS l 2 < phi) ∧ Int.gcd (opS l 2) phi = 1)) :
    keygenCmd l = raise .invalidPublicExponent := by
  simp only [keygenCmd, hbase, euclid_eq_gcd]
  by_cases hrange : 1 ≤ opS l 2 ∧ opS l 2 < phi
  · rw [if_neg (not_not.mpr hrange), if_pos fun hg => he ⟨hrange, hg⟩]
  · rw [if_pos hrange]

theorem keygenCmd_of_valid (hbase : keyBase (opS l 0) (opS l 1) = .ok n phi)
    (he : 1 ≤ opS l 2 ∧ opS l 2 < phi) (hg : Int.gcd (opS l 2) phi = 1) :
    ∃ d, KeyPair (opS l 0) (opS l 1) n phi (opS l 2) d ∧
      keygenCmd l = complete [opS l 0, opS l 1, n, phi, opS l 2, d] := by
  obtain ⟨d, hd, hpair⟩ := exists_keyPair hbase he hg
  refine ⟨d, hpair, ?_⟩
  simp only [keygenCmd, hbase, euclid_eq_gcd]
  rw [if_neg (not_not.mpr he), if_neg (not_not.mpr hg), hd]

/-! ### KEYGEN_AUTO -/

theorem keygenAutoCmd_of_error (hbase : keyBase (opS l 0) (opS l 1) = .error code) :
    keygenAutoCmd l = raise code := by
  simp only [keygenAutoCmd, hbase]

theorem keygenAutoCmd_of_phi_le_two (hbase : keyBase (opS l 0) (opS l 1) = .ok n phi) (hphi : phi ≤ 2) :
    keygenAutoCmd l = raise .notFound := by
  simp only [keygenAutoCmd, hbase, chooseE_exhausted _ hphi, raise]

theorem keygenAutoCmd_of_overBudget {k : Nat} (hbase : keyBase (opS l 0) (opS l 1) = .ok n phi)
    (hscan : chooseE phi (budgetOf l) = .overBudget k) :
    keygenAutoCmd l = .err .budgetExceeded .none 0 k := by
  simp only [keygenAutoCmd, hbase, hscan]

theorem keygenAutoCmd_of_firstCoprime {e : Int} (hbase : keyBase (opS l 0) (opS l 1) = .ok n phi)
    (he : FirstCoprime phi e) (hadm : admits l (e - 1).toNat) :
    ∃ d, KeyPair (opS l 0) (opS l 1) n phi e d ∧
      keygenAutoCmd l = .ok [opS l 0, opS l 1, n, phi, e, d] [] (e - 1).toNat := by
  have ⟨h2, hlt, hg, _⟩ := he
  obtain ⟨d, hd, hpair⟩ := exists_keyPair hbase ⟨by omega, hlt⟩ hg
  exact ⟨d, hpair, by simp only [keygenAutoCmd, hbase, chooseE_found he hadm, hd]⟩

end

/-- Settles O16: one clause for each way KEYGEN ends, in the order of its checks. -/
theorem keygenCommand : Obligations.KeygenCommand := by
  refine ⟨decode_eq_command_iff.mpr rfl, ?_⟩
  rintro s l _ _ _ hb rfl rfl rfl
  refine ⟨fun h => exec_of_err hb (keygenCmd_of_error (keyBase_of_nonpos h)),
    fun hp hq h => exec_of_err hb (keygenCmd_of_error (keyBase_of_gt hp hq h)),
    fun hp hq h he => exec_of_err hb (keygenCmd_of_invalid (keyBase_of_le hp hq h) (by omega)),
    fun hp hq h he1 helt hg => ?_⟩
  obtain ⟨d, hpair, hcmd⟩ := keygenCmd_of_valid (keyBase_of_le hp hq h) ⟨he1, helt⟩ hg
  exact ⟨d, hpair.d_range.1, hpair.d_range.2, hpair.inverse, exec_of_ok (i := .keygen) hb hcmd⟩

/-- Settles O17: one clause for each way `key_base` and then `choose_e` ends. -/
theorem keygenAutoCommand : Obligations.KeygenAutoCommand := by
  refine ⟨decode_eq_command_iff.mpr rfl, ?_⟩
  rintro s l _ _ hb rfl rfl
  refine ⟨fun h => exec_of_err hb (keygenAutoCmd_of_error (keyBase_of_nonpos h)),
    fun hp hq h => exec_of_err hb (keygenAutoCmd_of_error (keyBase_of_gt hp hq h)),
    fun hp hq h hphi => exec_of_err hb (keygenAutoCmd_of_phi_le_two (keyBase_of_le hp hq h) hphi),
    fun e hp hq h he hadm => exec_of_err hb
      (keygenAutoCmd_of_overBudget (keyBase_of_le hp hq h) (chooseE_overBudget he hadm)),
    fun e hp hq h he hadm => ?_⟩
  obtain ⟨d, hpair, hcmd⟩ := keygenAutoCmd_of_firstCoprime (keyBase_of_le hp hq h) he hadm
  exact ⟨d, hpair.d_range.1, hpair.d_range.2, hpair.inverse, exec_of_ok (i := .keygenAuto) hb hcmd⟩

/-! ### What a successful key command returns -/

/-- The results are a key pair, in the order of R140. -/
def KeyPairResults (rs : List Int) : Prop :=
  ∃ p q n phi e d, rs = [p, q, n, phi, e, d] ∧ KeyPair p q n phi e d

theorem keyPairResults_of_keygenCmd {l : Latch} {rs : List Int} {ws : List (Nat × Int)} {k : Nat}
    (h : keygenCmd l = .ok rs ws k) : KeyPairResults rs := by
  cases hbase : keyBase (opS l 0) (opS l 1) with
  | error code => cases (keygenCmd_of_error hbase).symm.trans h
  | ok n phi =>
    by_cases he : (1 ≤ opS l 2 ∧ opS l 2 < phi) ∧ Int.gcd (opS l 2) phi = 1
    · obtain ⟨d, hpair, hcmd⟩ := keygenCmd_of_valid hbase he.1 he.2
      cases hcmd.symm.trans h
      exact ⟨_, _, _, _, _, _, rfl, hpair⟩
    · cases (keygenCmd_of_invalid hbase he).symm.trans h

theorem keyPairResults_of_keygenAutoCmd {l : Latch} {rs : List Int} {ws : List (Nat × Int)} {k : Nat}
    (h : keygenAutoCmd l = .ok rs ws k) : KeyPairResults rs := by
  cases hbase : keyBase (opS l 0) (opS l 1) with
  | error code => cases (keygenAutoCmd_of_error hbase).symm.trans h
  | ok n phi =>
    rcases chooseE_cases phi (budgetOf l) with ⟨e, he, hadm, _⟩ | ⟨hphi, _⟩ | ⟨_, _, _, hscan⟩
    · obtain ⟨d, hpair, hcmd⟩ := keygenAutoCmd_of_firstCoprime hbase he hadm
      cases hcmd.symm.trans h
      exact ⟨_, _, _, _, _, _, rfl, hpair⟩
    · cases (keygenAutoCmd_of_phi_le_two hbase hphi).symm.trans h
    · cases (keygenAutoCmd_of_overBudget hbase hscan).symm.trans h

/-- A value of a result register reads back as itself (60_exceptions.md R213). -/
theorem s64_enc64 {v : Int} (h : 0 ≤ v ∧ v ≤ maxS64) : s64 (enc64 v) = v := by
  unfold maxS64 at h
  exact BitVec.toInt_ofInt_eq_self (by decide) (by omega) (by omega)

/-- After a success the result registers hold the results of the outcome, and read back as them. -/
theorem exec_success {i : Instr} {s t : State} (h : exec i s = .next t) (hok : t.errCode = .ok) :
    ∃ rs ws k, outcomeOf s.build.memWords i s.inputs = .ok rs ws k ∧ t.res = Bank.ofResults rs ∧
      ∀ j, s64 (t.res.get j) = rs.getD j 0 := by
  have hlegal := outcome_legal s.build.memWords i s.inputs
  rw [exec_eq_commit] at h
  rcases commit_next h with ⟨rs, ws, k, ho, rfl⟩ | ⟨code, stage, info, k, ho, rfl⟩
  · rw [ho] at hlegal
    refine ⟨rs, ws, k, ho, rfl, fun j => ?_⟩
    rw [okState_res, Bank.get_ofResults]
    exact s64_enc64 (getD_nonneg_and_le_maxS64 hlegal.1 j)
  · rw [ho] at hlegal
    obtain ⟨_, hfailed, _⟩ := hlegal
    exact absurd hok hfailed

/-- Settles O18: a success of either command returns a key pair, and the registers hold it. -/
theorem keyPairInvariants : Obligations.KeyPairInvariants := by
  intro i s t hi h hok
  obtain ⟨rs, ws, k, ho, hres, hread⟩ := exec_success h hok
  have hpairs : KeyPairResults rs := by
    rcases hi with rfl | rfl
    · exact keyPairResults_of_keygenCmd ho
    · exact keyPairResults_of_keygenAutoCmd ho
  obtain ⟨p, q, n, phi, e, d, rfl, hpair⟩ := hpairs
  obtain ⟨hp, hq, hn, hphi, hg, hinv, ⟨he1, helt⟩, hd0, hdlt⟩ := hpair
  exact ⟨p, q, n, phi, e, d, hread 0, hread 1, hread 2, hread 3, hread 4, hread 5, by rw [hres]; rfl,
    by rw [hres]; rfl, hn, hphi, hg, hinv, he1, helt, hd0, hdlt, hp, hq, by omega⟩

end Sys2Proof.Machine

/-! The Cipher commands (42_cipher.md R161 to R165): what `cipher_map` commits for each kind of source range,
the outcome of ENCRYPT and DECRYPT from their operands, and the round trip of a key pair. -/

namespace Sys2Proof.Machine

/-! ### The cipher map -/

theorem SourceSymbol.unique {l : Latch} {i : Nat} {x y : Int} (hx : SourceSymbol l i x)
    (hy : SourceSymbol l i y) : x = y := by
  obtain ⟨w, hw, rfl⟩ := hx
  obtain ⟨w', hw', rfl⟩ := hy
  cases hw.symm.trans hw'
  rfl

theorem SymbolsInRange.sourceWritten {l : Latch} {n : Int} (h : SymbolsInRange l n) : SourceWritten l := by
  intro i hi
  obtain ⟨_, ⟨w, hw, _⟩, _⟩ := h i hi
  rw [hw]
  rfl

section
variable {l : Latch} {k it : Nat} {n : Int} {st : Stage} {rs : List Int}

/-- Pass 1 reports the lowest offending index (R162). -/
theorem cipherMap_of_firstBadSymbol {i : Nat} (hw : SourceWritten l) (hbad : FirstBadSymbol l n i) :
    cipherMap k n l st rs it = .err .symbolOutOfRange st i it := by
  obtain ⟨hi, ⟨x, hx, hxbad⟩, hbelow⟩ := hbad
  obtain ⟨ss, _, hread, hmap⟩ := cipherMap_written (k := k) (n := n) (st := st) (rs := rs) (it := it) hw
  have hsym : ∀ j y, j < lenOf l → SourceSymbol l j y → ss[j]? = some y := fun j y hj hy => by
    obtain ⟨w, hload, hget⟩ := hread j hj
    rw [hget, hy.unique ⟨w, hload, rfl⟩]
  have hfirst : firstOutOfRange n 0 ss = some i :=
    firstOutOfRange_eq_some.mpr ⟨i, by omega, ⟨x, hsym i x hi hx, hxbad⟩, fun j hj => by
      obtain ⟨y, hy, hrange⟩ := hbelow j hj
      exact ⟨y, hsym j y (by omega) hy, hrange⟩⟩
  rcases hmap with ⟨j, hj, hmap⟩ | ⟨hall, _⟩
  · rw [hmap, Option.some.inj (hj.symm.trans hfirst)]
  · have := hall x (List.mem_of_getElem? (hsym i x hi hx))
    omega

/-- The cipher map succeeds only on a source range of symbols in `[0, n)` (R161, R162). -/
theorem symbolsInRange_of_cipherMap_ok {rs' : List Int} {ws : List (Nat × Int)} {it' : Nat}
    (h : cipherMap k n l st rs it = .ok rs' ws it') : SymbolsInRange l n := by
  have hw : SourceWritten l := by
    by_contra hw
    cases (cipherMap_uninit.mpr hw).symm.trans h
  obtain ⟨ss, _, hread, ⟨_, _, hmap⟩ | ⟨hall, _⟩⟩ :=
    cipherMap_written (k := k) (n := n) (st := st) (rs := rs) (it := it) hw
  · cases hmap.symm.trans h
  · intro i hi
    obtain ⟨w, hload, hget⟩ := hread i hi
    exact ⟨s64 w, ⟨w, hload, rfl⟩, hall _ (List.mem_of_getElem? hget)⟩

/-- Pass 2 writes the powers of the source symbols, in order (R161). -/
theorem cipherMap_of_symbolsInRange (hn : 0 < n) (h : SymbolsInRange l n) :
    ∃ vs : List Int, vs.length = lenOf l ∧
      (∀ i, i < lenOf l → ∃ x, SourceSymbol l i x ∧ vs[i]? = some (x ^ k % n)) ∧
      cipherMap k n l st rs it = .ok rs (writesAt (dstOf l) vs) it := by
  obtain ⟨ss, hlen, hread, ⟨j, hj, _⟩ | ⟨_, hmap⟩⟩ :=
    cipherMap_written (k := k) (n := n) (st := st) (rs := rs) (it := it) h.sourceWritten
  · have hgood : firstOutOfRange n 0 ss = none := firstOutOfRange_eq_none.mpr fun x hx => by
      obtain ⟨i, hi, rfl⟩ := List.mem_iff_getElem.mp hx
      obtain ⟨w, hload, hget⟩ := hread i (by omega)
      obtain ⟨y, hy, hrange⟩ := h i (by omega)
      rw [List.getElem?_eq_getElem hi, Option.some.injEq] at hget
      rwa [hget, SourceSymbol.unique ⟨w, hload, rfl⟩ hy]
    cases hgood.symm.trans hj
  · refine ⟨_, by rw [List.length_map, hlen], fun i hi => ?_, hmap⟩
    obtain ⟨w, hload, hget⟩ := hread i hi
    exact ⟨s64 w, ⟨w, hload, rfl⟩, by rw [List.getElem?_map, hget, Option.map_some, modpow_eq hn]⟩

end

/-- A cipher map over symbols in range commits the element-wise power map of the memory (R161). -/
theorem commit_cipherMap_of_symbolsInRange {s : State} {n : Int} (k : Nat) (st : Stage) (rs : List Int)
    (it : Nat) (hn : 0 < n) (h : SymbolsInRange s.inputs n) :
    ∃ m, PowerMapped s k n m ∧
      commit s (cipherMap k n s.inputs st rs it) = .next (okState s (Bank.ofResults rs) m it) := by
  obtain ⟨vs, hlen, hvs, hmap⟩ := cipherMap_of_symbolsInRange (k := k) (st := st) (rs := rs) (it := it) hn h
  refine ⟨s.mem.commit (writesAt (dstOf s.inputs) vs), ⟨fun i hi => ?_, fun a ha => ?_⟩,
    by rw [hmap, commit_ok]⟩
  · obtain ⟨x, hx, hget⟩ := hvs i hi
    refine ⟨x, hx, ?_⟩
    rw [loadSym_commit_writesAt, if_pos (by omega), Nat.add_sub_cancel_left, hget, Option.map_some]
  · exact loadByte_commit_writesAt_outside vs _ _ (by rwa [hlen])

/-! ### ENCRYPT and DECRYPT -/

/-- The operand checks of the cipher commands in order, then the cipher map (R163, R164). -/
theorem cipherCmd_eq (memWords : Nat) (l : Latch) :
    cipherCmd memWords l =
      if opS l 1 ≤ 0 ∨ opS l 0 < 0 then raise .domain
      else if memWords < srcOf l + lenOf l ∨ memWords < dstOf l + lenOf l then raise .lengthExceeded
      else cipherMap (opS l 0).toNat (opS l 1) l .none [] 0 := by
  have hlen : (¬ rangeOk memWords l = true) ↔
      (memWords < srcOf l + lenOf l ∨ memWords < dstOf l + lenOf l) := by
    rw [rangeOk, decide_eq_true_iff]
    omega
  simp only [cipherCmd, hlen]
  by_cases hn : opS l 1 ≤ 0
  · simp only [hn, true_or, if_true]
  · simp only [hn, false_or, if_false]

/-- DECRYPT computes ENCRYPT's function of `(exponent, n, symbols)` (R164). -/
theorem exec_decrypt_eq_exec_encrypt (s : State) : exec .decrypt s = exec .encrypt s := rfl

theorem exec_encrypt_of_domain {s : State} (h : opS s.inputs 1 ≤ 0 ∨ opS s.inputs 0 < 0) :
    exec .encrypt s = .next (errState s .domain .none 0 0) := by
  rw [exec_eq_commit, outcomeOf, cipherCmd_eq, if_pos h, commit_raise]

section
variable {s : State} (hn : 0 < opS s.inputs 1) (hk : 0 ≤ opS s.inputs 0)
include hn hk

theorem exec_encrypt_of_length (h : s.build.memWords < srcOf s.inputs + lenOf s.inputs ∨
      s.build.memWords < dstOf s.inputs + lenOf s.inputs) :
    exec .encrypt s = .next (errState s .lengthExceeded .none 0 0) := by
  rw [exec_eq_commit, outcomeOf, cipherCmd_eq, if_neg (by omega), if_pos h, commit_raise]

variable (hsrc : srcOf s.inputs + lenOf s.inputs ≤ s.build.memWords)
  (hdst : dstOf s.inputs + lenOf s.inputs ≤ s.build.memWords)
include hsrc hdst

/-- Past the operand checks ENCRYPT is the cipher map. -/
theorem exec_encrypt_eq_commit_cipherMap :
    exec .encrypt s =
      commit s (cipherMap (opS s.inputs 0).toNat (opS s.inputs 1) s.inputs .none [] 0) := by
  rw [exec_eq_commit, outcomeOf, cipherCmd_eq, if_neg (by omega), if_neg (by omega)]

theorem exec_encrypt_of_symbolsInRange (h : SymbolsInRange s.inputs (opS s.inputs 1)) :
    ∃ m, PowerMapped s (opS s.inputs 0).toNat (opS s.inputs 1) m ∧
      exec .encrypt s = .next (okState s Bank.zero m 0) := by
  rw [exec_encrypt_eq_commit_cipherMap hn hk hsrc hdst]
  exact commit_cipherMap_of_symbolsInRange _ .none [] 0 hn h

end

/-- Settles O19: the operand checks, and then one clause for each kind of source range. -/
theorem encryptCommand : Obligations.EncryptCommand := by
  refine ⟨decode_eq_command_iff.mpr rfl, ?_⟩
  rintro s l _ _ hb rfl rfl
  obtain rfl : s.inputs = l := by rw [State.inputs, hb]
  refine ⟨exec_encrypt_of_domain, exec_encrypt_of_length, fun hn hk hsrc hdst => ⟨fun hw => ?_,
    fun i hw hbad => ?_, exec_encrypt_of_symbolsInRange hn hk hsrc hdst⟩⟩
  · rw [exec_encrypt_eq_commit_cipherMap hn hk hsrc hdst, cipherMap_uninit.mpr hw]
    rfl
  · rw [exec_encrypt_eq_commit_cipherMap hn hk hsrc hdst, cipherMap_of_firstBadSymbol hw hbad, commit_err]

/-- Settles O20: DECRYPT's clauses are ENCRYPT's, of the same function. -/
theorem decryptCommand : Obligations.DecryptCommand := by
  refine ⟨decode_eq_command_iff.mpr rfl, ?_⟩
  simp only [exec_decrypt_eq_exec_encrypt]
  exact encryptCommand.2

/-! ### The round trip of a key pair (R165) -/

/-- Fermat's little theorem, for every base: `x^(a+1) ≡ x` when `p - 1` divides `a`. -/
theorem pow_succ_modEq_self_of_prime {p a : Nat} (hp : p.Prime) (h : p - 1 ∣ a) (x : Int) :
    x ^ (a + 1) ≡ x [ZMOD p] := by
  have : Fact p.Prime := ⟨hp⟩
  obtain ⟨t, rfl⟩ := h
  rw [← ZMod.intCast_eq_intCast_iff, Int.cast_pow, pow_succ]
  by_cases hx : (x : ZMod p) = 0
  · rw [hx, mul_zero]
  · rw [pow_mul, ZMod.pow_card_sub_one_eq_one hx, one_pow, one_mul]

theorem pow_succ_modEq_self_of_distinct_primes {p q a : Nat} (hp : p.Prime) (hq : q.Prime) (hne : p ≠ q)
    (h : (p - 1) * (q - 1) ∣ a) (x : Int) : x ^ (a + 1) ≡ x [ZMOD p * q] :=
  (Int.modEq_and_modEq_iff_modEq_mul (m := p) (n := q) ((Nat.coprime_primes hp hq).mpr hne)).mp
    ⟨pow_succ_modEq_self_of_prime hp (dvd_of_mul_right_dvd h) x,
      pow_succ_modEq_self_of_prime hq (dvd_of_mul_left_dvd h) x⟩

/-- Inverse exponents multiply to 1 plus a multiple of `phi`. -/
theorem exists_mul_toNat_eq_succ {phi : Nat} {e d : Int} (he : 0 ≤ e) (hd : 0 ≤ d)
    (hinv : (e * d) % phi = 1) : ∃ a, phi ∣ a ∧ e.toNat * d.toNat = a + 1 := by
  lift e to Nat using he
  lift d to Nat using hd
  have hpos : e * d ≠ 0 := by
    intro h0
    rw [← Nat.cast_mul, h0] at hinv
    simp at hinv
  have hmod : e * d % phi = 1 := by exact_mod_cast hinv
  exact ⟨e * d - 1, hmod ▸ Nat.dvd_sub_mod (e * d), by rw [Int.toNat_natCast, Int.toNat_natCast]; omega⟩

/-- Inverse exponents modulo `(p - 1)(q - 1)` undo each other modulo `p·q` (R165). -/
theorem pow_emod_pow_emod_eq_self {p q : Nat} {e d x : Int} (hp : p.Prime) (hq : q.Prime) (hne : p ≠ q)
    (he : 0 ≤ e) (hd : 0 ≤ d) (hinv : (e * d) % ((p - 1) * (q - 1)) = 1) (hx : 0 ≤ x ∧ x < p * q) :
    (x ^ e.toNat % (p * q)) ^ d.toNat % (p * q) = x := by
  rw [← Nat.cast_pred hp.pos, ← Nat.cast_pred hq.pos, ← Nat.cast_mul] at hinv
  obtain ⟨a, hdvd, hed⟩ := exists_mul_toNat_eq_succ he hd hinv
  calc (x ^ e.toNat % (p * q)) ^ d.toNat % (p * q)
      = (x ^ e.toNat) ^ d.toNat % (p * q) := (Int.mod_modEq _ _).pow _
    _ = x ^ (a + 1) % (p * q) := by rw [← pow_mul, hed]
    _ = x % (p * q) := pow_succ_modEq_self_of_distinct_primes hp hq hne hdvd x
    _ = x := Int.emod_eq_of_lt hx.1 hx.2

/-- A successful ENCRYPT had valid operands and symbols, and left the power map of its source. -/
theorem exec_encrypt_success {u v : State} (h : exec .encrypt u = .next v) (hok : v.errCode = .ok) :
    0 < opS u.inputs 1 ∧ 0 ≤ opS u.inputs 0 ∧ SymbolsInRange u.inputs (opS u.inputs 1) ∧
      PowerMapped u (opS u.inputs 0).toNat (opS u.inputs 1) v.mem := by
  obtain ⟨rs, ws, it, ho, _⟩ := exec_success h hok
  rw [outcomeOf, cipherCmd_eq] at ho
  split_ifs at ho with hdomain hlen
  · cases ho
  · cases ho
  · have hsyms := symbolsInRange_of_cipherMap_ok ho
    obtain ⟨m, hm, hnext⟩ :=
      exec_encrypt_of_symbolsInRange (s := u) (by omega) (by omega) (by omega) (by omega) hsyms
    cases hnext.symm.trans h
    exact ⟨by omega, by omega, hsyms, hm⟩

section
variable {u x : State} {n : Int} {k : Nat} {m : Memory} (hn : 0 < n) (hmax : n ≤ maxS64)
  (hm : PowerMapped u k n m) (hlen : lenOf x.inputs = lenOf u.inputs)
  (hsrc : ∀ j, j < lenOf u.inputs →
    x.inputs.sym0.loadSym (srcOf x.inputs + j) = m.loadSym (dstOf u.inputs + j))
include hn hmax hm hsrc

/-- Where a source range holds what a power map wrote, its symbols are the powers. -/
theorem sourceSymbol_of_powerMapped {j : Nat} (hj : j < lenOf u.inputs) :
    ∃ z, SourceSymbol u.inputs j z ∧ SourceSymbol x.inputs j (z ^ k % n) := by
  obtain ⟨z, hz, hload⟩ := hm.1 j hj
  have hlt := Int.emod_lt_of_pos (z ^ k) hn
  exact ⟨z, hz, enc64 (z ^ k % n), (hsrc j hj).trans hload,
    s64_enc64 ⟨Int.emod_nonneg _ hn.ne', by omega⟩⟩

include hlen in
theorem symbolsInRange_of_powerMapped : SymbolsInRange x.inputs n := by
  intro j hj
  obtain ⟨z, _, hx⟩ := sourceSymbol_of_powerMapped hn hmax hm hsrc (hlen ▸ hj)
  exact ⟨_, hx, Int.emod_nonneg _ hn.ne', Int.emod_lt_of_pos _ hn⟩

include hlen in
/-- A second power map that undoes the first on `[0, n)` brings back the first one's source words. -/
theorem loadSym_of_powerMapped_powerMapped {k' : Nat} {m' : Memory} (hm' : PowerMapped x k' n m')
    (hundo : ∀ z, 0 ≤ z ∧ z < n → (z ^ k % n) ^ k' % n = z) (hsyms : SymbolsInRange u.inputs n)
    {j : Nat} (hj : j < lenOf u.inputs) :
    m'.loadSym (dstOf x.inputs + j) = u.inputs.sym0.loadSym (srcOf u.inputs + j) := by
  obtain ⟨z, hz, hx⟩ := sourceSymbol_of_powerMapped hn hmax hm hsrc hj
  obtain ⟨y, hy, hload⟩ := hm'.1 j (hlen.symm ▸ hj)
  obtain ⟨z', hz', hrange⟩ := hsyms j hj
  obtain rfl := hz'.unique hz
  obtain rfl := hy.unique hx
  obtain ⟨w, hw, rfl⟩ := hz
  rw [hload, hundo _ hrange, hw, enc64, s64, BitVec.ofInt_toInt]

end

/-- Settles O21: the exponents of a key pair undo each other on `[0, p·q)` by Fermat's little theorem modulo
each prime, and DECRYPT's source range holds residues, so none of its errors applies. -/
theorem encryptDecryptRoundTrip : Obligations.EncryptDecryptRoundTrip := by
  intro i k k' u v x hi hkey hkok hp hq hne hue hun henc hvok hxd hxn hlen hsrc hxsrc hxdst
  obtain ⟨p, q, n, phi, e, d, hp0, hq0, hn2, -, he4, hd5, -, -, rfl, rfl, -, hinv, he1, -, hd0, -, hp1,
    hq1, -⟩ := keyPairInvariants i k k' hi hkey hkok
  have hpq : p ≠ q := fun h => hne (BitVec.toInt_inj.mp (hp0.trans (h.trans hq0.symm)))
  rw [hp0] at hp
  rw [hq0] at hq
  rw [he4] at hue
  rw [hd5] at hxd
  rw [hn2] at hun hxn
  lift p to Nat using by omega
  lift q to Nat using by omega
  obtain ⟨hn, _, hsyms, hv⟩ := exec_encrypt_success henc hvok
  have hmax := (opS_range u.inputs 1).2
  rw [hun] at hn hmax hsyms hv
  rw [hue] at hv
  have hxsyms := symbolsInRange_of_powerMapped hn hmax hv hlen hsrc
  obtain ⟨m, hm, hnext⟩ := exec_encrypt_of_symbolsInRange (s := x) (by rwa [hxn]) (by rwa [hxd]) hxsrc hxdst
    (by rwa [hxn])
  rw [hxn, hxd] at hm
  refine ⟨_, hnext, rfl, fun j hj => loadSym_of_powerMapped_powerMapped hn hmax hv hlen hsrc hm ?_ hsyms hj⟩
  exact fun z hz => pow_emod_pow_emod_eq_self hp hq (by exact_mod_cast hpq) (by omega) hd0 hinv hz

end Sys2Proof.Machine

/-! The Cracker commands (43_cracker.md R180 to R187): what each candidate scan answers, in terms of the first
divisor and the first inverse; the outcome of each command from its scans; and the cracking of a ciphertext. -/

namespace Sys2Proof.Machine

/-! ### A candidate scan by the candidates that pass -/

section
variable {test : Int → Bool} {budget : Nat} {lo hi : Int}

/-- A scan of `[lo, hi)` finds the first candidate to pass, candidate number `k`, if the budget admits it. -/
theorem scan_of_first {v : Int} {k : Nat} (hlo : lo ≤ v) (hhi : v < hi) (hk : (k : Int) = v - lo + 1)
    (ht : test v = true) (hmin : ∀ u, lo ≤ u → u < v → test u = false) :
    scan test budget (hi - lo).toNat 0 lo =
      if budget = 0 ∨ k ≤ budget then .found v k else .overBudget budget := by
  obtain ⟨j, rfl⟩ := Int.le.dest hlo
  obtain rfl : k = 0 + j + 1 := by omega
  have hbefore : ∀ i : Nat, i < j → test (lo + i) = false := fun i hi => hmin _ (by omega) (by omega)
  split_ifs with hadm
  · exact scan_found j (by omega) ht hbefore hadm
  · exact scan_overBudget (by omega) (by omega) (by omega) fun i hi => hbefore i (by omega)

/-- A scan of `[lo, hi)` in which no candidate passes reaches its end, if the budget admits all of them. -/
theorem scan_of_none (hnone : ∀ u, lo ≤ u → u < hi → test u = false) :
    scan test budget (hi - lo).toNat 0 lo =
      if budget = 0 ∨ (hi - lo).toNat ≤ budget then .exhausted (hi - lo).toNat else .overBudget budget := by
  split_ifs with hadm
  · rw [scan_exhausted (fun i hi => hnone _ (by omega) (by omega)) (by omega), Nat.zero_add]
  · exact scan_overBudget (by omega) (by omega) (by omega) fun i hi => hnone _ (by omega) (by omega)

end

/-! ### The first divisor (R180) -/

/-- A prime has no divisor strictly between 1 and itself, and below 2 there is no candidate. -/
theorem PrimeOrUnit.not_dvd {n u : Int} (hn : PrimeOrUnit n) (hu : 2 ≤ u) (hun : u < n) : ¬ u ∣ n := by
  intro hdvd
  rcases hn with hle | hprime
  · omega
  · lift n to Nat using by omega
    lift u to Nat using by omega
    rcases (Nat.dvd_prime hprime).mp (Int.natCast_dvd_natCast.mp hdvd) with h | h <;> omega

/-- The first divisor is the least prime factor, of an `n` that is neither prime nor at most 1 (R180). -/
theorem firstDivisor_iff {n p : Int} :
    FirstDivisor n p ↔ ¬ PrimeOrUnit n ∧ p = (n.toNat.minFac : Nat) := by
  constructor
  · rintro ⟨hp, hpn, hdvd, hmin⟩
    refine ⟨fun hn => hn.not_dvd hp hpn hdvd, ?_⟩
    lift n to Nat using by omega
    lift p to Nat using by omega
    have hle : n.minFac ≤ p := Nat.minFac_le_of_dvd (by omega) (Int.natCast_dvd_natCast.mp hdvd)
    have htwo : 2 ≤ n.minFac := (Nat.minFac_prime (by omega)).two_le
    have hge : ¬ n.minFac < p := fun hlt =>
      hmin n.minFac (by omega) (by omega) (Int.natCast_dvd_natCast.mpr n.minFac_dvd)
    rw [Int.toNat_natCast]
    omega
  · rintro ⟨hn, rfl⟩
    obtain ⟨hn1, hnp⟩ := not_or.mp hn
    lift n to Nat using by omega
    rw [Int.toNat_natCast] at hnp ⊢
    have htwo : 2 ≤ n.minFac := (Nat.minFac_prime (by omega)).two_le
    have hlt : n.minFac < n := (Nat.not_prime_iff_minFac_lt (by omega)).mp hnp
    refine ⟨by omega, by omega, Int.natCast_dvd_natCast.mpr n.minFac_dvd, fun u hu hup hdvd => ?_⟩
    lift u to Nat using by omega
    have := Nat.minFac_le_of_dvd (by omega) (Int.natCast_dvd_natCast.mp hdvd)
    omega

theorem not_primeOrUnit_iff_exists_firstDivisor {n : Int} : ¬ PrimeOrUnit n ↔ ∃ p, FirstDivisor n p := by
  simp only [firstDivisor_iff, exists_and_left, exists_eq, and_true]

/-- The smaller of two distinct primes is the first divisor of their product. -/
theorem firstDivisor_mul_of_lt {p q : Nat} (hp : p.Prime) (hq : q.Prime) (hlt : p < q) :
    FirstDivisor (p * q) p := by
  have hp2 := hp.two_le
  refine ⟨by omega, by nlinarith, dvd_mul_right _ _, fun u hu hup hdvd => ?_⟩
  lift u to Nat using by omega
  have hcop : (p * q).Coprime u := Nat.Coprime.mul_left
    (Nat.coprime_of_lt_prime (by omega) (by omega) hp) (Nat.coprime_of_lt_prime (by omega) (by omega) hq)
  have := hcop.symm.eq_one_of_dvd (by exact_mod_cast hdvd)
  omega

/-- `factor_scan` of an `n` with a first divisor `p`: candidate `p - 1` is the one found. -/
theorem factorScan_of_firstDivisor {n p : Int} {budget : Nat} (h : FirstDivisor n p) :
    factorScan n budget =
      if budget = 0 ∨ (p - 1).toNat ≤ budget then .found p (p - 1).toNat else .overBudget budget := by
  obtain ⟨hp, hpn, hdvd, hmin⟩ := h
  refine scan_of_first hp hpn (by omega) ?_ fun u hu hup => ?_
  · simpa [emod_eq] using Int.emod_eq_zero_of_dvd hdvd
  · simpa [emod_eq, ← Int.dvd_iff_emod_eq_zero] using hmin u hu hup

theorem factorScan_of_primeOrUnit {n : Int} {budget : Nat} (hn : PrimeOrUnit n) :
    factorScan n budget =
      if budget = 0 ∨ (n - 2).toNat ≤ budget then .exhausted (n - 2).toNat else .overBudget budget :=
  scan_of_none fun u hu hun => by simpa [emod_eq, ← Int.dvd_iff_emod_eq_zero] using hn.not_dvd hu hun

/-! ### FACTORIZE -/

/-- Settles O22: the two ways `factor_scan` goes, each within the budget and over it. -/
theorem factorizeCommand : Obligations.FactorizeCommand := by
  refine ⟨decode_eq_command_iff.mpr rfl, ?_⟩
  rintro s l _ hb rfl
  refine ⟨not_primeOrUnit_iff_exists_firstDivisor, fun p hp hadm => ?_,
    fun p hp hadm => exec_of_err hb ?_, fun hn hadm => exec_of_err hb ?_, fun hn hadm => exec_of_err hb ?_⟩
  · exact exec_of_ok (i := .factorize) hb
      (by rw [outcomeOf, factorizeCmd, (factorScan_of_firstDivisor hp).trans (if_pos hadm)])
  · rw [outcomeOf, factorizeCmd, (factorScan_of_firstDivisor hp).trans (if_neg hadm)]
  · rw [outcomeOf, factorizeCmd, (factorScan_of_primeOrUnit hn).trans (if_pos hadm)]
  · rw [outcomeOf, factorizeCmd, (factorScan_of_primeOrUnit hn).trans (if_neg hadm)]

/-- FACTORIZE succeeds only with the first divisor and its cofactor. -/
theorem firstDivisor_of_factorizeCmd_ok {l : Latch} {rs : List Int} {ws : List (Nat × Int)} {k : Nat}
    (h : factorizeCmd l = .ok rs ws k) : ∃ p, FirstDivisor (opS l 0) p ∧ rs = [p, opS l 0 / p] := by
  have hspec := factorScan_spec (opS l 0) (budgetOf l)
  cases hscan : factorScan (opS l 0) (budgetOf l) <;> rw [factorizeCmd, hscan] at h <;> cases h
  rw [hscan] at hspec
  obtain ⟨hp, hpn, hdvd, _, hmin, _⟩ := hspec
  exact ⟨_, ⟨hp, hpn, hdvd, hmin⟩, rfl⟩

/-- A first divisor is at most its cofactor (R180). -/
theorem FirstDivisor.le_div {n p : Int} (h : FirstDivisor n p) : p ≤ n / p := by
  obtain ⟨hn, rfl⟩ := firstDivisor_iff.mp h
  obtain ⟨hn1, hnp⟩ := not_or.mp hn
  lift n to Nat using by omega
  exact_mod_cast Nat.minFac_le_div (by omega) hnp

/-- Settles O23: the registers hold the first divisor, which is the least prime factor, and its cofactor. -/
theorem factorizeReturnsLeastPrime : Obligations.FactorizeReturnsLeastPrime := by
  intro s t h hok
  obtain ⟨rs, ws, k, ho, _, hread⟩ := exec_success h hok
  obtain ⟨p, hp, rfl⟩ := firstDivisor_of_factorizeCmd_ok ho
  have ⟨hp2, hpn, hdvd, _⟩ := hp
  have hmin : p.toNat = (opS s.inputs 0).toNat.minFac := by
    rw [(firstDivisor_iff.mp hp).2, Int.toNat_natCast]
  have hres0 : s64 (t.res.get 0) = p := hread 0
  have hres1 : s64 (t.res.get 1) = opS s.inputs 0 / p := hread 1
  rw [hres0, hres1]
  exact ⟨hmin ▸ Nat.minFac_prime (by omega), hp2, hp.le_div, Int.mul_ediv_cancel' hdvd, hmin⟩

/-! ### TOTIENT -/

/-- Settles O24: one clause for each branch of TOTIENT. -/
theorem totientCommand : Obligations.TotientCommand := by
  refine ⟨decode_eq_command_iff.mpr rfl, ?_⟩
  rintro s l _ _ hb rfl rfl
  refine ⟨fun h => exec_of_err hb (if_pos h), fun hp hq h => exec_of_err hb ?_,
    fun hp hq h => exec_of_ok_one (i := .totient) hb ?_⟩
  · exact (if_neg (by omega)).trans (if_pos h)
  · exact (if_neg (by omega)).trans (if_neg (not_lt.mpr h))

/-! ### The first inverse (R184) -/

/-- The inverse in `[0, phi)` is unique, so it is also the first. -/
theorem firstInverse_of_inverse {e phi d : Int} (hd : 0 ≤ d) (hlt : d < phi) (hinv : (e * d) % phi = 1) :
    FirstInverse e phi d := by
  refine ⟨inverse_pos hd hinv, hlt, hinv, fun u hu hud h => ?_⟩
  have := inverse_unique h hinv ⟨by omega, by omega⟩ ⟨hd, hlt⟩
  omega

/-- The first inverse is what `ext_inverse` answers (R184, R116). -/
theorem exists_extInverse_firstInverse {e phi : Int} (h : 2 ≤ phi ∧ Int.gcd e phi = 1) :
    ∃ d, extInverse e phi = some d ∧ FirstInverse e phi d := by
  obtain ⟨d, hd⟩ := extInverse_of_coprime h.1 h.2
  obtain ⟨hd0, hlt, hinv⟩ := extInverse_some (by omega) hd
  exact ⟨d, hd, firstInverse_of_inverse hd0 hlt hinv⟩

theorem two_le_and_gcd_eq_one_iff_exists_firstInverse {e phi : Int} :
    (2 ≤ phi ∧ Int.gcd e phi = 1) ↔ ∃ d, FirstInverse e phi d := by
  constructor
  · intro h
    obtain ⟨d, _, hd⟩ := exists_extInverse_firstInverse h
    exact ⟨d, hd⟩
  · rintro ⟨d, hd1, hlt, hinv, _⟩
    exact ⟨by omega, gcd_eq_one_of_inverse hinv⟩

/-- `recover_scan` where there is a first inverse `d`: candidate `d` is the one found. -/
theorem recoverScan_of_firstInverse {e phi d : Int} {budget : Nat} (h : FirstInverse e phi d) :
    recoverScan e phi budget =
      if budget = 0 ∨ d.toNat ≤ budget then .found d d.toNat else .overBudget budget := by
  obtain ⟨hd, hlt, hinv, hmin⟩ := h
  refine scan_of_first hd hlt (by omega) ?_ fun u hu hud => ?_
  · simpa [emod_eq] using hinv
  · simpa [emod_eq] using hmin u hu hud

theorem recoverScan_of_not_invertible {e phi : Int} {budget : Nat} (h : ¬ (2 ≤ phi ∧ Int.gcd e phi = 1)) :
    recoverScan e phi budget =
      if budget = 0 ∨ (phi - 1).toNat ≤ budget then .exhausted (phi - 1).toNat else .overBudget budget := by
  refine scan_of_none fun u hu hup => ?_
  have hne : (e * u) % phi ≠ 1 := fun hinv => h ⟨by omega, gcd_eq_one_of_inverse hinv⟩
  simpa [emod_eq] using hne

/-! ### RECOVERD -/

/-- Settles O25: the two ways `recover_scan` goes, each within the budget and over it. -/
theorem recoverdCommand : Obligations.RecoverdCommand := by
  refine ⟨decode_eq_command_iff.mpr rfl, ?_⟩
  rintro s l _ _ hb rfl rfl
  refine ⟨two_le_and_gcd_eq_one_iff_exists_firstInverse, fun d hd hadm => exec_of_ok_one hb ?_,
    fun d hd hadm => exec_of_err hb ?_, fun h hadm => exec_of_err hb ?_, fun h hadm => exec_of_err hb ?_⟩
  · rw [outcomeOf, recoverdCmd, (recoverScan_of_firstInverse hd).trans (if_pos hadm)]
  · rw [outcomeOf, recoverdCmd, (recoverScan_of_firstInverse hd).trans (if_neg hadm)]
  · rw [outcomeOf, recoverdCmd, (recoverScan_of_not_invertible h).trans (if_pos hadm)]
  · rw [outcomeOf, recoverdCmd, (recoverScan_of_not_invertible h).trans (if_neg hadm)]

/-- Settles O26: the inverse `ext_inverse` answers is the candidate `recover_scan` finds. -/
theorem recoverdAgreesWithModinv : Obligations.RecoverdAgreesWithModinv := by
  intro s hphi hg hbudget
  obtain ⟨d, hd, hfirst⟩ := exists_extInverse_firstInverse ⟨hphi, hg⟩
  have hrecoverd : recoverdCmd s.inputs = .ok [d] [] d.toNat := by
    rw [recoverdCmd, recoverScan_of_firstInverse hfirst, if_pos (.inl hbudget)]
  have hmodinv : modinvCmd s.inputs = complete [d] := by
    rw [modinvCmd_of_two_le hphi, hd]
    rfl
  refine ⟨_, _, (exec_eq_commit _ _).trans (congrArg (commit s) hrecoverd),
    (exec_eq_commit _ _).trans (congrArg (commit s) hmodinv), rfl, rfl, rfl, ?_⟩
  have hd1 := hfirst.1
  lift d to Nat using by omega
  exact (BitVec.ofInt_natCast ..).symm

/-! ### CRACK -/

theorem rangeOk_iff {memWords : Nat} {l : Latch} :
    rangeOk memWords l = true ↔ srcOf l + lenOf l ≤ memWords ∧ dstOf l + lenOf l ≤ memWords := by
  rw [rangeOk, decide_eq_true_iff]

/-- Stage 1 fails (R186). -/
theorem crackCmd_of_length {memWords : Nat} {l : Latch}
    (h : memWords < srcOf l + lenOf l ∨ memWords < dstOf l + lenOf l) :
    crackCmd memWords l = .err .lengthExceeded .args 0 0 :=
  if_pos (rangeOk_iff.not.mpr (by omega))

section
variable {memWords : Nat} {l : Latch} {p d : Int} {j k : Nat}
  (hrange : rangeOk memWords l = true)
include hrange

/-- Stage 2 fails: no divisor (R186). -/
theorem crackCmd_of_factor_exhausted (hf : factorScan (opS l 1) (budgetOf l) = .exhausted k) :
    crackCmd memWords l = .err .primeOrUnfactorable .factorize 0 k := by
  simp only [crackCmd, hrange, not_true, if_false, hf]

/-- Stage 2 fails: the budget is spent (R186). -/
theorem crackCmd_of_factor_overBudget (hf : factorScan (opS l 1) (budgetOf l) = .overBudget k) :
    crackCmd memWords l = .err .budgetExceeded .factorize 0 k := by
  simp only [crackCmd, hrange, not_true, if_false, hf]

variable (hf : factorScan (opS l 1) (budgetOf l) = .found p k)
include hf

/-- Stage 4 fails: no inverse (R186). -/
theorem crackCmd_of_recover_exhausted
    (hr : recoverScan (opS l 0) (totient p (opS l 1 / p)) (budgetOf l) = .exhausted j) :
    crackCmd memWords l = .err .keyNotFound .recover 0 (k + j) := by
  simp only [crackCmd, hrange, not_true, if_false, hf, hr]

/-- Stage 4 fails: the budget is spent (R186). -/
theorem crackCmd_of_recover_overBudget
    (hr : recoverScan (opS l 0) (totient p (opS l 1 / p)) (budgetOf l) = .overBudget j) :
    crackCmd memWords l = .err .budgetExceeded .recover 0 (k + j) := by
  simp only [crackCmd, hrange, not_true, if_false, hf, hr]

/-- Stage 5 is reached (R186). -/
theorem crackCmd_of_recover_found
    (hr : recoverScan (opS l 0) (totient p (opS l 1 / p)) (budgetOf l) = .found d j) :
    crackCmd memWords l =
      cipherMap d.toNat (opS l 1) l .decrypt [p, opS l 1 / p, totient p (opS l 1 / p), d] (k + j) := by
  simp only [crackCmd, hrange, not_true, if_false, hf, hr]

end

section
variable {s : State} {p d : Int} (hrange : rangeOk s.build.memWords s.inputs = true)
  (hp : FirstDivisor (opS s.inputs 1) p) (hpadm : admits s.inputs (p - 1).toNat)
  (hd : FirstInverse (opS s.inputs 0) (totient p (opS s.inputs 1 / p)) d) (hdadm : admits s.inputs d.toNat)
include hrange hp hpadm hd hdadm

/-- With both scans within the budget CRACK is the cipher map of the recovered key (R186). -/
theorem exec_crack_eq_commit_cipherMap :
    exec .crack s = commit s (cipherMap d.toNat (opS s.inputs 1) s.inputs .decrypt
      [p, opS s.inputs 1 / p, totient p (opS s.inputs 1 / p), d] ((p - 1).toNat + d.toNat)) := by
  rw [exec_eq_commit, outcomeOf, crackCmd_of_recover_found hrange
    ((factorScan_of_firstDivisor hp).trans (if_pos hpadm))
    ((recoverScan_of_firstInverse hd).trans (if_pos hdadm))]

theorem exec_crack_of_symbolsInRange (h : SymbolsInRange s.inputs (opS s.inputs 1)) :
    ∃ m, PowerMapped s d.toNat (opS s.inputs 1) m ∧
      exec .crack s = .next (okState s
        ⟨enc64 p, enc64 (opS s.inputs 1 / p), enc64 (totient p (opS s.inputs 1 / p)), enc64 d, 0, 0, 0, 0⟩ m
        ((p - 1).toNat + d.toNat)) := by
  have ⟨hp2, hpn, _⟩ := hp
  rw [exec_crack_eq_commit_cipherMap hrange hp hpadm hd hdadm]
  exact commit_cipherMap_of_symbolsInRange _ .decrypt [_, _, _, _] _ (by omega) h

end

/-- Settles O27: one clause for each way a stage of CRACK ends it. -/
theorem crackCommand : Obligations.CrackCommand := by
  refine ⟨decode_eq_command_iff.mpr rfl, ?_⟩
  rintro s l _ _ hb rfl rfl
  obtain rfl : s.inputs = l := by rw [State.inputs, hb]
  refine ⟨fun h => exec_of_err hb (crackCmd_of_length h), fun hsrc hdst => ?_⟩
  have hrange := rangeOk_iff.mpr ⟨hsrc, hdst⟩
  refine ⟨fun hn hadm => exec_of_err hb ?_, fun hn hadm => exec_of_err hb ?_,
    fun p hp hadm => exec_of_err hb ?_, ?_⟩
  · exact crackCmd_of_factor_exhausted hrange ((factorScan_of_primeOrUnit hn).trans (if_pos hadm))
  · exact crackCmd_of_factor_overBudget hrange ((factorScan_of_primeOrUnit hn).trans (if_neg hadm))
  · exact crackCmd_of_factor_overBudget hrange ((factorScan_of_firstDivisor hp).trans (if_neg hadm))
  · rintro p _ hp hpadm rfl
    have hf := (factorScan_of_firstDivisor hp).trans (if_pos hpadm)
    refine ⟨fun h hadm => exec_of_err hb ?_, fun h hadm => exec_of_err hb ?_,
      fun d hd hadm => exec_of_err hb ?_, fun d hd hdadm => ⟨fun hw => ?_, fun i hw hbad => ?_,
        exec_crack_of_symbolsInRange hrange hp hpadm hd hdadm⟩⟩
    · exact crackCmd_of_recover_exhausted hrange hf
        ((recoverScan_of_not_invertible h).trans (if_pos hadm))
    · exact crackCmd_of_recover_overBudget hrange hf
        ((recoverScan_of_not_invertible h).trans (if_neg hadm))
    · exact crackCmd_of_recover_overBudget hrange hf ((recoverScan_of_firstInverse hd).trans (if_neg hadm))
    · rw [exec_crack_eq_commit_cipherMap hrange hp hpadm hd hdadm, cipherMap_uninit.mpr hw]
      rfl
    · rw [exec_crack_eq_commit_cipherMap hrange hp hpadm hd hdadm, cipherMap_of_firstBadSymbol hw hbad,
        commit_err]

/-- Settles O28: the factors of `p·q` give the totient the exponent is inverted by, so the cipher map with the
recovered exponent undoes ENCRYPT's, as in the round trip of a key pair. -/
theorem crackUndoesEncrypt : Obligations.CrackUndoesEncrypt := by
  intro p q u v x hp hq hlt hun hg henc hvok hxe hxn hbudget hlen hsrc hxsrc hxdst
  obtain ⟨hn, he, hsyms, hv⟩ := exec_encrypt_success henc hvok
  have hmax := (opS_range u.inputs 1).2
  rw [hun] at hn hmax hsyms hv hxn
  have hp2 : (2 : Int) ≤ p := by exact_mod_cast hp.two_le
  have hdiv : (p * q : Int) / p = q := Int.mul_ediv_cancel_left _ (by omega)
  have hfirst := firstDivisor_mul_of_lt hp hq hlt
  have hphi : (2 : Int) ≤ (p - 1) * (q - 1) := by nlinarith
  obtain ⟨d, _, hd⟩ := exists_extInverse_firstInverse ⟨hphi, hg⟩
  have ⟨hd1, _, hinv, _⟩ := hd
  obtain ⟨m, hm, hnext⟩ := exec_crack_of_symbolsInRange (s := x) (p := p) (d := d)
    (rangeOk_iff.mpr ⟨hxsrc, hxdst⟩) (by rwa [hxn]) (.inl hbudget) (by rwa [hxn, hxe, hdiv]) (.inl hbudget)
    (hxn ▸ symbolsInRange_of_powerMapped hn hmax hv hlen hsrc)
  rw [hxn, hdiv] at hnext
  rw [hxn] at hm
  refine ⟨_, hnext, rfl, s64_enc64 ⟨by omega, by nlinarith⟩, s64_enc64 ⟨by omega, by nlinarith⟩,
    s64_enc64 (v := ((p : Int) - 1) * (q - 1)) ⟨by omega, by nlinarith⟩, fun j hj =>
      loadSym_of_powerMapped_powerMapped hn hmax hv hlen hsrc hm (fun z hz => ?_) hsyms hj⟩
  exact pow_emod_pow_emod_eq_self hp hq hlt.ne he (by omega) hinv hz

end Sys2Proof.Machine

/-! Completion and its errors (60_exceptions.md R210 to R226): what a command leaves and keeps when it completes, the
one way it stops, how a command starts, and that every command ends. -/

namespace Sys2Proof.Machine

/-! ### The next state of a command -/

/-- If `exec` answers a next state, it is the completion of a legal success or of a legal error. -/
theorem exec_next_cases {i : Instr} {s t : State} (h : exec i s = .next t) :
    (∃ rs ws k, OutcomeLegal s.build.memWords i s.inputs (.ok rs ws k) ∧
      t = okState s (Bank.ofResults rs) (s.mem.commit ws) k) ∨
    (∃ code stage info k, OutcomeLegal s.build.memWords i s.inputs (.err code stage info k) ∧
      t = errState s code stage info k) := by
  rcases exec_cases i s with ⟨rs, ws, k, hl, he⟩ | ⟨code, stage, info, k, hl, he⟩ | ⟨_, he⟩ <;>
    cases he.symm.trans h
  · exact .inl ⟨rs, ws, k, hl, rfl⟩
  · exact .inr ⟨code, stage, info, k, hl, rfl⟩

/-! ### The frame of a completion -/

/-- A success of a command without symbols keeps every byte. -/
theorem OutcomeLegal.commit_eq {n k : Nat} {i : Instr} {l : Latch} {rs : List Int} {ws : List (Nat × Int)}
    (h : OutcomeLegal n i l (.ok rs ws k)) (hi : usesSymbols i = false) (m : Memory) : m.commit ws = m := by
  obtain ⟨_, _, ⟨_, rfl⟩ | ⟨hsym, _⟩⟩ := h
  · exact commit_nil m
  · cases hi.symm.trans hsym

/-- A success keeps every byte outside `[DST, DST+LEN)` (20_memory.md R68). -/
theorem OutcomeLegal.loadByte_commit_outside {n k : Nat} {i : Instr} {l : Latch} {rs : List Int}
    {ws : List (Nat × Int)} (h : OutcomeLegal n i l (.ok rs ws k)) (m : Memory) {a : Nat}
    (ha : a < symOffset (dstOf l) ∨ symOffset (dstOf l + lenOf l) ≤ a) :
    (m.commit ws).loadByte a = m.loadByte a := by
  obtain ⟨_, _, ⟨_, rfl⟩ | ⟨_, _, vs, hlen, rfl⟩⟩ := h
  · rfl
  · exact loadByte_commit_writesAt_outside vs _ m (by rwa [hlen])

/-- Settles O29: both completion states keep these fields; an error keeps the memory, and a success writes only where
its legal outcome may. -/
theorem completionFrame : Obligations.CompletionFrame := by
  intro i s t h
  rcases exec_next_cases h with ⟨rs, ws, k, hl, rfl⟩ | ⟨code, stage, info, k, _, rfl⟩
  · refine ⟨rfl, rfl, rfl, rfl, rfl, rfl, rfl, rfl, rfl, rfl, rfl, rfl, fun hi a => ?_, fun a ha => ?_⟩
    · rw [okState_mem, hl.commit_eq hi]
    · exact hl.loadByte_commit_outside s.mem ha
  · exact ⟨rfl, rfl, rfl, rfl, rfl, rfl, rfl, rfl, rfl, rfl, rfl, rfl, fun _ _ => rfl, fun _ _ => rfl⟩

/-! ### Errors -/

/-- Settles O30: a completion with an error code is `errState`, which records the error and nothing else. -/
theorem errorsArePrecise : Obligations.ErrorsArePrecise := by
  intro i s t h hfailed
  rcases exec_next_cases h with ⟨rs, ws, k, _, rfl⟩ | ⟨code, stage, info, k, _, rfl⟩
  · exact absurd rfl hfailed
  · rfl

theorem ok_mem_codesOf (i : Instr) : ErrCode.ok ∈ codesOf i := by
  cases i <;> decide

/-- Every command but CRACK fails at stage 0 (10_state.md R31). -/
theorem stagesOf_of_ne_crack {i : Instr} (h : i ≠ .crack) : stagesOf i = [.none] := by
  cases i with
  | crack => exact absurd rfl h
  | _ => rfl

/-- Settles O32: a success records code 0, stage 0 and no information; a legal error is one of the command's own
codes and stages. -/
theorem codesAndStagesOfEachCommand : Obligations.CodesAndStagesOfEachCommand := by
  intro i s t h
  rcases exec_next_cases h with ⟨rs, ws, k, _, rfl⟩ | ⟨code, stage, info, k, hl, rfl⟩
  · exact ⟨ok_mem_codesOf i, fun _ => rfl, fun _ => rfl, fun _ hfailed => absurd rfl hfailed, fun _ => rfl⟩
  · obtain ⟨hcode, hfailed, hstage, hindex, _⟩ := hl
    refine ⟨hcode, fun hok => absurd hok hfailed, fun hi => ?_, ?_, fun hne => ?_⟩
    · rw [stagesOf_of_ne_crack hi] at hstage
      exact List.mem_singleton.mp hstage
    · rintro rfl _
      exact hstage
    · obtain rfl : info = 0 := not_not.mp (mt hindex hne)
      rfl

/-! ### The one stop -/

theorem usesSymbols_iff {i : Instr} : usesSymbols i = true ↔ i = .encrypt ∨ i = .decrypt ∨ i = .crack := by
  cases i <;> decide

/-- Settles O31: the model-only outcome is legal only for a cipher read inside the bounds with an unwritten source
word, and it is the only outcome that is not committed to a next state. -/
theorem onlyUnwrittenSourceStops : Obligations.OnlyUnwrittenSourceStops := by
  intro i s
  rcases exec_cases i s with ⟨_, _, _, _, he⟩ | ⟨_, _, _, _, _, he⟩ | ⟨⟨hsym, hrange, hunwritten⟩, he⟩
  · exact .inl ⟨_, he⟩
  · exact .inl ⟨_, he⟩
  · obtain ⟨hsrc, _⟩ := rangeOk_iff.mp hrange
    exact .inr ⟨he, usesSymbols_iff.mp hsym, hsrc, hunwritten⟩

/-! ### Command start -/

/-- Settles O36: the write reaches CMD, which while IDLE starts the command. -/
theorem acceptedCmdWriteStarts : Obligations.AcceptedCmdWriteStarts := by
  intro s w hidle
  refine (busAccess_memWrite_reg s .cmd w).trans ?_
  rw [writeRegister, writeUnlessBusy_of_idle hidle]
  rfl

/-! ### Whose turn a step is -/

theorem nextTurn_of_schedule_cons {s : State} {a : Agent} {rest : List Agent} (h : s.schedule = a :: rest) :
    nextTurn s = (a, rest) := by
  simp only [nextTurn, h]

theorem nextTurn_of_schedule_nil {s : State} (h : s.schedule = []) (hb : s.busy = true) :
    nextTurn s = (.engine, []) := by
  simp only [nextTurn, h, hb, if_true]

theorem step_of_schedule_cons {s : State} {a : Agent} {rest : List Agent} (h : s.schedule = a :: rest) :
    step s = turnOf a { s with schedule := rest } := by
  rw [step, stepAgents, nextTurn_of_schedule_cons h]

/-- Past the end of the schedule a BUSY engine has the turn (the model's weak fairness). -/
theorem step_of_schedule_nil {s : State} (h : s.schedule = []) (hb : s.busy = true) :
    step s = engineTurn s := by
  rw [step, stepAgents, nextTurn_of_schedule_nil h hb, turnOf, ← h]

theorem engineTurn_of_command {s : State} {l : Latch} {i : Instr} (hb : s.engine = .busy l)
    (hd : decode l.cmd = .command i) : engineTurn s = exec i s := by
  simp only [engineTurn, hb, hd]

/-- Settles O9: the bytes of the latched word decode as the word, and either schedule gives the engine the turn. -/
theorem stepRunsDecodedCommand : Obligations.StepRunsDecodedCommand := by
  intro s l i hb hbytes _
  have hd : decode l.cmd = .command i := by
    have hword := decodeBytes_leBytes_append l.cmd []
    rw [List.append_nil] at hword
    rwa [hword] at hbytes
  refine ⟨fun rest hs => ?_, fun hs => ?_⟩
  · exact (step_of_schedule_cons hs).trans (engineTurn_of_command hb hd)
  · exact (step_of_schedule_nil hs ((busy_iff s).mpr ⟨l, hb⟩)).trans (engineTurn_of_command hb hd)

/-! ### Every command ends -/

/-- The engine's turn while BUSY completes the command, legal or not, or stops with the model-only fault. -/
theorem engineTurn_of_busy {s : State} (hb : s.busy = true) :
    (∃ t, engineTurn s = .next t ∧ t.busy = false) ∨ engineTurn s = .fault .uninitSymbolRead := by
  rcases engineTurn_cases s with ⟨hidle, _⟩ | ⟨_, i, _, _, ht⟩ | ⟨_, _, _, _, ht⟩
  · rw [(not_busy_iff s).mpr hidle] at hb
    cases hb
  · rw [ht]
    rcases onlyUnwrittenSourceStops i s with ⟨t, he⟩ | ⟨he, _⟩
    · exact .inl ⟨t, he, (not_busy_iff t).mpr (exec_completes he).engine_idle⟩
    · exact .inr he
  · exact .inl ⟨_, ht, rfl⟩

theorem BusEffect.schedule_eq {s t : State} (h : BusEffect s t) : t.schedule = s.schedule := by
  cases h <;> rfl

theorem hostTurn_schedule (s : State) : (hostTurn s).schedule = s.schedule := by
  rcases hostTurn_cases s with ⟨_, ht⟩ | ⟨op, _, _, _, ht⟩ <;> rw [ht]
  exact (busAccess_effect s (hostOpAccess s.build op)).schedule_eq

/-- Within `n` steps the engine is IDLE or the run has stopped with the model-only fault. -/
def EndsWithin (n : Nat) (s : State) : Prop :=
  ∃ k, k ≤ n ∧
    ((∃ t : State, Host.Core.run Sys2Proof.core k s = .next t ∧ t.busy = false) ∨
      Host.Core.run Sys2Proof.core k s = .fault Fault.uninitSymbolRead)

theorem endsWithin_of_idle {s : State} (n : Nat) (h : s.busy = false) : EndsWithin n s :=
  ⟨0, Nat.zero_le n, .inl ⟨s, rfl, h⟩⟩

theorem endsWithin_of_fault {s : State} (n : Nat) (h : step s = .fault .uninitSymbolRead) :
    EndsWithin (n + 1) s :=
  ⟨1, by omega, .inr (run_fault 0 h)⟩

theorem endsWithin_of_next {n : Nat} {s t : State} (h : step s = .next t) (ht : EndsWithin n t) :
    EndsWithin (n + 1) s := by
  obtain ⟨k, hk, hrun⟩ := ht
  refine ⟨k + 1, by omega, ?_⟩
  rwa [run_next k h]

/-- A step that is the turn of a BUSY engine ends the command. -/
theorem endsWithin_of_engineTurn {s u : State} (n : Nat) (hb : u.busy = true) (h : step s = engineTurn u) :
    EndsWithin (n + 1) s := by
  rcases engineTurn_of_busy hb with ⟨t, ht, hidle⟩ | hf
  · exact endsWithin_of_next (h.trans ht) (endsWithin_of_idle n hidle)
  · exact endsWithin_of_fault n (h.trans hf)

/-- Each turn of the schedule ends the command or leaves one turn fewer, and past the last the engine has the turn. -/
theorem endsWithin_schedule (s : State) : EndsWithin (s.schedule.length + 1) s := by
  generalize hs : s.schedule = sched
  induction sched generalizing s with
  | nil =>
    cases hb : s.busy with
    | false => exact endsWithin_of_idle _ hb
    | true => exact endsWithin_of_engineTurn 0 hb (step_of_schedule_nil hs hb)
  | cons a rest ih =>
    have hstep := step_of_schedule_cons hs
    cases a with
    | host => exact endsWithin_of_next hstep (ih _ (hostTurn_schedule _))
    | platform => exact endsWithin_of_next hstep (endsWithin_of_idle _ rfl)
    | engine =>
      cases hb : s.busy with
      | false => exact endsWithin_of_idle _ hb
      | true => exact endsWithin_of_engineTurn (u := { s with schedule := rest }) _ hb hstep

/-- Settles O55: BUSY or not, a state ends within its schedule and one step more. -/
theorem everyCommandEnds : Obligations.EveryCommandEnds :=
  fun s _ => endsWithin_schedule s

end Sys2Proof.Machine

/-! Resets and the order of host accesses (70_reset_and_hazards.md R240 to R257): the power-on reset, whose turn a step
is, what a host access reads and stores, what it leaves of a command in flight, and when a step is safe. -/

namespace Sys2Proof.Machine

/-! ### The power-on reset and the state after it -/

/-- Settles O1: the platform's turn is `powerOnReset`, which writes each of these values. -/
theorem powerOnResetClearsEverything : Obligations.PowerOnResetClearsEverything :=
  fun _ _ hs => ⟨_, step_of_schedule_cons hs, rfl, rfl, rfl, rfl, rfl, rfl, rfl, rfl, rfl, rfl, rfl, rfl, rfl, rfl,
    rfl, rfl, rfl, loadByte_nil, rfl⟩

/-- Settles O3: reset leaves the memory empty, the engine IDLE and the outcome registers zero. -/
theorem resetMeetsInvariant : Obligations.ResetMeetsInvariant := by
  have hbuild : BuildLegal State.reset := by unfold BuildLegal; decide
  obtain ⟨hclean, hnonneg⟩ : OutcomeInv State.reset :=
    outcomeInv_zero rfl (by decide) (fun _ => rfl) (fun h => absurd rfl h)
  exact ⟨hbuild, memoryWhole_of_mem_nil rfl, latchLive_of_idle rfl, hclean, hnonneg⟩

/-! ### Whose turn a step is -/

/-- Past the end of the schedule the host has the turn while the engine is IDLE. -/
theorem step_of_schedule_nil_idle {s : State} (h : s.schedule = []) (hidle : s.engine = .idle) :
    step s = .next (hostTurn s) := by
  have hturn : nextTurn s = (.host, []) := by
    simp [nextTurn, h, (not_busy_iff s).mpr hidle]
  rw [step, stepAgents, hturn, turnOf, ← h]

theorem hostTurn_of_program_nil {s : State} (h : s.program = []) : hostTurn s = s := by
  simp only [hostTurn, h]

/-- Every line but WAIT is dropped once its access is made (30_encoding.md R95). -/
theorem programAfter_of_ne_wait {op : HostOp} (h : op ≠ .wait) (rest : List HostOp) (r : Option Response) :
    programAfter op rest r = rest := by
  cases op with
  | wait => exact absurd rfl h
  | _ => rfl

theorem hostTurn_of_ne_wait {s : State} {op : HostOp} {rest : List HostOp} (hp : s.program = op :: rest)
    (hop : op ≠ .wait) : hostTurn s = { busAccess s (hostOpAccess s.build op) with program := rest } := by
  simp only [hostTurn, hp, programAfter_of_ne_wait hop]

theorem engineTurn_of_idle {s : State} (h : s.engine = .idle) : engineTurn s = .next s := by
  simp only [engineTurn, h]

/-- Settles O2: the step is a host turn with no line left. -/
theorem resetIsCleanEntry : Obligations.ResetIsCleanEntry := by
  have hstep : step State.reset = .next State.reset :=
    (step_of_schedule_nil_idle rfl rfl).trans (congrArg _ (hostTurn_of_program_nil rfl))
  exact ⟨rfl, rfl, rfl, rfl, rfl, rfl, rfl, rfl, rfl, fun _ => rfl, rfl, hstep⟩

/-- Settles O57: the schedule, or past its end the phase, names the agent, and each agent's turn has its own law. -/
theorem stepIsTheTurnOfItsAgent : Obligations.StepIsTheTurnOfItsAgent :=
  ⟨fun _ _ => step_of_schedule_cons, fun _ => step_of_schedule_nil_idle, fun _ _ _ => hostTurn_of_ne_wait,
    fun _ => hostTurn_of_program_nil, fun _ _ => step_of_schedule_cons,
    fun s l hs hb => step_of_schedule_nil hs ((busy_iff s).mpr ⟨l, hb⟩), fun _ => engineTurn_of_idle,
    fun _ _ _ => engineTurn_of_command, fun _ _ => step_of_schedule_cons⟩

/-- Settles O56: only the engine's turn can stop, and only on an unwritten word of the latched source. -/
theorem stepsAreSafeOnWrittenSource : Obligations.StepsAreSafeOnWrittenSource := by
  intro s hwritten
  obtain ⟨sch, hs | hs | hs⟩ := step_cases s
  · exact ⟨_, hs⟩
  · rcases engineTurn_cases { s with schedule := sch } with ⟨_, ht⟩ | ⟨l, i, hb, _, ht⟩ | ⟨_, _, _, _, ht⟩
    · exact ⟨_, hs.trans ht⟩
    · rcases onlyUnwrittenSourceStops i { s with schedule := sch } with ⟨t, he⟩ | ⟨_, _, _, hunwritten⟩
      · exact ⟨t, (hs.trans ht).trans he⟩
      · rw [State.inputs, hb] at hunwritten
        exact absurd (hwritten l hb) hunwritten
    · exact ⟨_, hs.trans ht⟩
  · exact ⟨_, hs⟩

/-! ### Host reads, and host writes while IDLE -/

/-- Settles O58: the reads are `readTarget` of a register and of a written word. -/
theorem hostReadsReturnTheValue : Obligations.HostReadsReturnTheValue :=
  ⟨busAccess_memRead_reg, fun _ _ _ => busAccess_memRead_sym, fun _ => ⟨rfl, rfl, rfl, rfl, rfl, rfl⟩⟩

section
variable {s : State} (hidle : s.engine = .idle) (v : Word)
include hidle

theorem busAccess_memWrite_op_of_idle (i : Fin 8) :
    busAccess s (memWrite s.build (regOffset (.op i)) v) =
      { s with ops := s.ops.set i v, resp := some .writeOk } := by
  rw [busAccess_memWrite_reg, writeRegister, writeUnlessBusy_of_idle hidle]

theorem busAccess_memWrite_budget_of_idle :
    busAccess s (memWrite s.build (regOffset .budget) v) = { s with budget := v, resp := some .writeOk } := by
  rw [busAccess_memWrite_reg, writeRegister, writeUnlessBusy_of_idle hidle]

theorem busAccess_memWrite_sym_of_idle {i : Nat} (hb : BuildLegal s) (hi : i < s.build.memWords) :
    busAccess s (memWrite s.build (symOffset i) v) =
      { s with mem := s.mem.storeSym i v, resp := some .writeOk } := by
  rw [busAccess_memWrite_sym v hb hi, writeUnlessBusy_of_idle hidle]

end

/-- Only `OPi` reads differently after a write to it (10_state.md R21). -/
theorem readRegister_set_op (s : State) (i : Fin 8) (v : Word) (resp : Option Response) (r : Reg) :
    readRegister { s with ops := s.ops.set i v, resp := resp } r =
      if r = .op i then v else readRegister s r := by
  cases r with
  | op j => simp only [readRegister, Bank.get_set, Reg.op.injEq, eq_comm]
  | _ => rfl

/-- Only BUDGET reads differently after a write to it (10_state.md R32). -/
theorem readRegister_set_budget (s : State) (v : Word) (resp : Option Response) (r : Reg) :
    readRegister { s with budget := v, resp := resp } r = if r = .budget then v else readRegister s r := by
  cases r <;> rfl

/-- No register reads the symbol memory. -/
theorem readRegister_set_mem (s : State) (m : Memory) (resp : Option Response) (r : Reg) :
    readRegister { s with mem := m, resp := resp } r = readRegister s r := by
  cases r <;> rfl

/-- Settles O38: each write stores one register or one symbol word, and is read back by its read-after-write law. -/
theorem idleWritesReadBack : Obligations.IdleWritesReadBack := by
  intro s v hbuild hidle
  refine ⟨fun i => ⟨_, busAccess_memWrite_op_of_idle hidle v i, rfl, readRegister_set_op s i v _, rfl⟩,
    ⟨_, busAccess_memWrite_budget_of_idle hidle v, rfl, readRegister_set_budget s v _, rfl⟩,
    fun i hi => ⟨_, busAccess_memWrite_sym_of_idle hidle v hbuild hi, rfl, readRegister_set_mem s _ _, ?_,
      fun j hj => loadSym_storeSym_other hj.symm⟩⟩
  have hread := busAccess_memRead_sym (s := { s with mem := s.mem.storeSym i v, resp := some .writeOk }) hbuild hi
    (loadSym_storeSym_same s.mem i v)
  exact congrArg State.resp hread

/-! ### Host accesses to a command in flight -/

/-- The command in flight, its operands, the previous outcome and the symbol memory are the same in both states: of the
block's own registers only IE, DONE and WERR may differ (R252). -/
def CommandKept (s t : State) : Prop :=
  t = { s with ie := t.ie, done := t.done, werr := t.werr, draws := t.draws, program := t.program, resp := t.resp }

/-- While BUSY a host access keeps the command, or is the soft reset. -/
theorem BusEffect.idle_or_commandKept {s t : State} {l : Latch} (hb : s.engine = .busy l) (he : BusEffect s t) :
    t.engine = .idle ∨ CommandKept s t := by
  cases he with
  | softReset => exact .inl rfl
  | start _ idle | budget _ idle | operand _ _ idle | symbol _ _ idle _ => cases hb.symm.trans idle
  | answered | flagged | enable | status => exact .inr rfl

theorem hostTurn_idle_or_commandKept {s : State} {l : Latch} (hb : s.engine = .busy l) :
    (hostTurn s).engine = .idle ∨ CommandKept s (hostTurn s) := by
  rcases hostTurn_cases s with ⟨_, ht⟩ | ⟨op, _, p, _, ht⟩ <;> rw [ht]
  · exact .inr rfl
  · refine ((busAccess_effect s (hostOpAccess s.build op)).idle_or_commandKept hb).imp_right fun hkept => ?_
    rw [hkept]
    rfl

/-- Settles O48: the host's turn is at most one access, and moving on in the program changes nothing of the block. -/
theorem hostTurnWhileBusyKeepsOutcome : Obligations.HostTurnWhileBusyKeepsOutcome := by
  intro s l hb
  refine (hostTurn_idle_or_commandKept hb).imp_right fun hkept => ?_
  rw [hkept]
  exact ⟨hb, rfl, rfl, rfl, rfl, rfl, rfl, rfl, rfl, rfl⟩

/-! ### Soft reset -/

theorem writeCtrl_of_srst {s : State} {v : Word} (h : v.getLsbD 1 = true) : writeCtrl s v = resetRegisters s :=
  if_pos h

theorem writeCtrl_of_not_srst {s : State} {v : Word} (h : v.getLsbD 1 = false) :
    writeCtrl s v = { s with ie := v.getLsbD 0 } := by
  simp only [writeCtrl, h, Bool.false_eq_true, if_false]

theorem busAccess_write_of_target {s : State} {addr bytes off : Nat} {t : Target} {v : Word}
    (hw : windowOffset s.build addr = some off) (ht : accessTarget s.build.memWords off bytes = some t) :
    busAccess s ⟨addr, bytes, .write v⟩ = writeTarget s t v := by
  simp only [busAccess, hw, ht]

/-- An access that reaches a register is a 64-bit access at that register's offset. -/
theorem eq_of_accessTarget_reg {b : Build} {n addr bytes off : Nat} {r : Reg}
    (hw : windowOffset b addr = some off) (ht : accessTarget n off bytes = some (.reg r)) :
    addr = b.base + regOffset r ∧ bytes = 8 := by
  unfold accessTarget at ht
  unfold windowOffset at hw
  split at ht
  · next hbytes =>
    have hoff := decodeOffset_reg.mp ht
    split at hw
    · cases hw
      omega
    · cases hw
  · cases ht

/-- A write to a target keeps a BUSY engine, unless it sets SRST (R241). -/
theorem writeTarget_engine {s : State} {l : Latch} (hb : s.engine = .busy l) (t : Target) (v : Word) :
    (writeTarget s t v).engine = .busy l ∨ (t = .reg .ctrl ∧ v.getLsbD 1 = true) := by
  have hdrop := writeUnlessBusy_of_busy hb
  cases t with
  | sym i => exact .inl ((congrArg State.engine (hdrop _)).trans hb)
  | reg r =>
    cases r with
    | ctrl =>
      cases hv : v.getLsbD 1 with
      | true => exact .inr ⟨rfl, rfl⟩
      | false => exact .inl ((congrArg State.engine (writeCtrl_of_not_srst hv)).trans hb)
    | cmd | budget | op => exact .inl ((congrArg State.engine (hdrop _)).trans hb)
    | status | id | cap | iters | errInfo | res => exact .inl hb

/-- An access to a BUSY block keeps the engine, unless it is a CTRL write with SRST 1 (R241). -/
theorem busAccess_engine {s : State} {l : Latch} (hb : s.engine = .busy l) (a : Access) :
    (busAccess s a).engine = .busy l ∨
      ∃ v : Word, v.getLsbD 1 = true ∧ a = memWrite s.build (regOffset .ctrl) v := by
  obtain ⟨addr, bytes, kind⟩ := a
  cases kind with
  | read =>
    obtain ⟨_, _, _, hread, _⟩ := readsHaveNoSideEffects s addr bytes
    exact .inl ((congrArg State.engine hread).trans hb)
  | write v =>
    cases hw : windowOffset s.build addr with
    | none => exact .inl ((congrArg State.engine (busAccess_of_outside hw)).trans hb)
    | some off =>
      cases ht : accessTarget s.build.memWords off bytes with
      | none => exact .inl ((congrArg State.engine (busAccess_of_no_target hw ht)).trans hb)
      | some t =>
        rw [busAccess_write_of_target hw ht]
        refine (writeTarget_engine hb t v).imp_right ?_
        rintro ⟨rfl, hv⟩
        obtain ⟨rfl, rfl⟩ := eq_of_accessTarget_reg hw ht
        exact ⟨v, hv, rfl⟩

/-- Settles O46: with SRST 1 the write is `resetRegisters`, and every other access keeps a BUSY engine. -/
theorem softResetEffects : Obligations.SoftResetEffects := by
  refine ⟨fun s v hv => (busAccess_memWrite_reg s .ctrl v).trans ?_, fun s l a hb hended => ?_⟩
  · rw [writeRegister, writeCtrl_of_srst hv]
    rfl
  · exact (busAccess_engine hb a).resolve_left hended

end Sys2Proof.Machine
